-- ==== Sys2Proof/Word.lean ====
section
/-! DEFINITION. The words the machine is made of (00_scope.md R8, R10, R13). -/

namespace Sys2Proof

/-- A memory byte, a general register, a timer (`V_WIDTH`, `TIMER_WIDTH`: R8). -/
abbrev Byte := BitVec 8

/-- A 16-bit value: `I`, `PC`, a call-stack slot (`I_WIDTH`, `PC_WIDTH`: R8). -/
abbrev Word := BitVec 16

/-- One instruction word, bit 15 most significant (30_encoding.md R90). -/
abbrev Opcode := BitVec 16

/-- The field `nnn`, bits 11-0 of the opcode (R13). -/
abbrev Addr := BitVec 12

/-- A four-bit field of the opcode: the top nibble, or `n` (R13). -/
abbrev Nibble := BitVec 4

/-- A general register's number, 0-15 (10_state.md R21). -/
abbrev Reg := Fin 16

/-- A keypad key's number, 0-15 (10_state.md R40). -/
abbrev Key := Fin 16

end Sys2Proof
end

