-- ==== Sys2Proof/Syntax.lean ====
section
/-! DEFINITION. The instructions: one constructor per row of spec/opcode_table.json (30_encoding.md R94, R100). -/

namespace Sys2Proof

/-- An instruction with its operands. `x`, `y` select `V[x]`, `V[y]`; `kk` is a byte, `nnn` an address, `n` a row count. -/
inductive Instr where
  | cls                           -- 00E0  CLS
  | ret                           -- 00EE  RET
  | sys (nnn : Addr)              -- 0nnn  SYS addr
  | jp (nnn : Addr)               -- 1nnn  JP addr
  | call (nnn : Addr)             -- 2nnn  CALL addr
  | seImm (x : Reg) (kk : Byte)   -- 3xkk  SE Vx, byte
  | sneImm (x : Reg) (kk : Byte)  -- 4xkk  SNE Vx, byte
  | seReg (x y : Reg)             -- 5xy0  SE Vx, Vy
  | ldImm (x : Reg) (kk : Byte)   -- 6xkk  LD Vx, byte
  | addImm (x : Reg) (kk : Byte)  -- 7xkk  ADD Vx, byte
  | ldReg (x y : Reg)             -- 8xy0  LD Vx, Vy
  | orReg (x y : Reg)             -- 8xy1  OR Vx, Vy
  | andReg (x y : Reg)            -- 8xy2  AND Vx, Vy
  | xorReg (x y : Reg)            -- 8xy3  XOR Vx, Vy
  | addReg (x y : Reg)            -- 8xy4  ADD Vx, Vy
  | sub (x y : Reg)               -- 8xy5  SUB Vx, Vy
  | shr (x y : Reg)               -- 8xy6  SHR Vx, Vy (y ignored)
  | subn (x y : Reg)              -- 8xy7  SUBN Vx, Vy
  | shl (x y : Reg)               -- 8xyE  SHL Vx, Vy (y ignored)
  | sneReg (x y : Reg)            -- 9xy0  SNE Vx, Vy
  | ldI (nnn : Addr)              -- Annn  LD I, addr
  | jpV0 (nnn : Addr)             -- Bnnn  JP V0, addr
  | rnd (x : Reg) (kk : Byte)     -- Cxkk  RND Vx, byte
  | drw (x y : Reg) (n : Nibble)  -- Dxyn  DRW Vx, Vy, nibble
  | skp (x : Reg)                 -- Ex9E  SKP Vx
  | sknp (x : Reg)                -- ExA1  SKNP Vx
  | ldVxDt (x : Reg)              -- Fx07  LD Vx, DT
  | ldVxK (x : Reg)               -- Fx0A  LD Vx, K
  | ldDtVx (x : Reg)              -- Fx15  LD DT, Vx
  | ldStVx (x : Reg)              -- Fx18  LD ST, Vx
  | addIVx (x : Reg)              -- Fx1E  ADD I, Vx
  | ldFVx (x : Reg)               -- Fx29  LD F, Vx
  | ldBVx (x : Reg)               -- Fx33  LD B, Vx
  | ldMemVx (x : Reg)             -- Fx55  LD [I], Vx
  | ldVxMem (x : Reg)             -- Fx65  LD Vx, [I]
  deriving DecidableEq, Repr

end Sys2Proof
end

