-- ==== Sys2Proof/Decode.lean ====
section
/-! DEFINITION. The decoder (30_encoding.md R91, R94) and, after it, the encoder, from the same encoding table. -/

namespace Sys2Proof

/-- Why a decoder call gives no instruction. -/
inductive DecodeReject where
  /-- The word is one of 30_encoding.md R97: it matches no recognized pattern. -/
  | unrecognized (op : Opcode)
  /-- Fewer than the two bytes of an instruction word were given (R90). -/
  | truncated
  deriving DecidableEq, Repr

/-! ### Fields (R13, R91) -/

/-- The top nibble `o`, bits 15-12. -/
def fieldO (op : Opcode) : Nibble := op.extractLsb' 12 4

/-- `x`, bits 11-8. -/
def fieldX (op : Opcode) : Reg := (op.extractLsb' 8 4).toFin

/-- `y`, bits 7-4. -/
def fieldY (op : Opcode) : Reg := (op.extractLsb' 4 4).toFin

/-- `n`, bits 3-0. -/
def fieldN (op : Opcode) : Nibble := op.extractLsb' 0 4

/-- `kk`, bits 7-0. -/
def fieldKk (op : Opcode) : Byte := op.extractLsb' 0 8

/-- `nnn`, bits 11-0. -/
def fieldNnn (op : Opcode) : Addr := op.extractLsb' 0 12

/-! ### Decoding -/

/-- Group 8: the nine register-to-register operations, selected by the low nibble (R94). -/
def decodeGroup8 (op : Opcode) : Except DecodeReject Instr :=
  match (fieldN op).toNat with
  | 0x0 => .ok (.ldReg (fieldX op) (fieldY op))
  | 0x1 => .ok (.orReg (fieldX op) (fieldY op))
  | 0x2 => .ok (.andReg (fieldX op) (fieldY op))
  | 0x3 => .ok (.xorReg (fieldX op) (fieldY op))
  | 0x4 => .ok (.addReg (fieldX op) (fieldY op))
  | 0x5 => .ok (.sub (fieldX op) (fieldY op))
  | 0x6 => .ok (.shr (fieldX op) (fieldY op))
  | 0x7 => .ok (.subn (fieldX op) (fieldY op))
  | 0xE => .ok (.shl (fieldX op) (fieldY op))
  | _ => .error (.unrecognized op)

/-- Group E: the key skips, selected by the low byte (R94). -/
def decodeGroupE (op : Opcode) : Except DecodeReject Instr :=
  match (fieldKk op).toNat with
  | 0x9E => .ok (.skp (fieldX op))
  | 0xA1 => .ok (.sknp (fieldX op))
  | _ => .error (.unrecognized op)

/-- Group F: selected by the low byte (R94). -/
def decodeGroupF (op : Opcode) : Except DecodeReject Instr :=
  match (fieldKk op).toNat with
  | 0x07 => .ok (.ldVxDt (fieldX op))
  | 0x0A => .ok (.ldVxK (fieldX op))
  | 0x15 => .ok (.ldDtVx (fieldX op))
  | 0x18 => .ok (.ldStVx (fieldX op))
  | 0x1E => .ok (.addIVx (fieldX op))
  | 0x29 => .ok (.ldFVx (fieldX op))
  | 0x33 => .ok (.ldBVx (fieldX op))
  | 0x55 => .ok (.ldMemVx (fieldX op))
  | 0x65 => .ok (.ldVxMem (fieldX op))
  | _ => .error (.unrecognized op)

/-- The decoder of R94, total on the 65536 words. It reads the system-call space as `sys` under either `P_SYS`; the
fault that R94 raises there under `P_SYS = FAULT` is raised by `sys`'s own meaning (DEDUCED, safe: assumption log 2). -/
def decode (op : Opcode) : Except DecodeReject Instr :=
  match (fieldO op).toNat with
  | 0x0 =>
    if op = 0x00E0#16 then .ok .cls
    else if op = 0x00EE#16 then .ok .ret
    else .ok (.sys (fieldNnn op))
  | 0x1 => .ok (.jp (fieldNnn op))
  | 0x2 => .ok (.call (fieldNnn op))
  | 0x3 => .ok (.seImm (fieldX op) (fieldKk op))
  | 0x4 => .ok (.sneImm (fieldX op) (fieldKk op))
  | 0x5 => if fieldN op = 0#4 then .ok (.seReg (fieldX op) (fieldY op)) else .error (.unrecognized op)
  | 0x6 => .ok (.ldImm (fieldX op) (fieldKk op))
  | 0x7 => .ok (.addImm (fieldX op) (fieldKk op))
  | 0x8 => decodeGroup8 op
  | 0x9 => if fieldN op = 0#4 then .ok (.sneReg (fieldX op) (fieldY op)) else .error (.unrecognized op)
  | 0xA => .ok (.ldI (fieldNnn op))
  | 0xB => .ok (.jpV0 (fieldNnn op))
  | 0xC => .ok (.rnd (fieldX op) (fieldKk op))
  | 0xD => .ok (.drw (fieldX op) (fieldY op) (fieldN op))
  | 0xE => decodeGroupE op
  | _ => decodeGroupF op

/-- The word whose high byte is `hi` and low byte `lo`: `Mem[a] ++ Mem[a + 1]` (20_memory.md R62). -/
def wordOfBytes (hi lo : Byte) : Opcode := hi ++ lo

/-- Decoding from a stream of bytes: two bytes are taken, high byte first, whatever they hold (R90); the rest is
answered with the instruction. -/
def decodeBytes : List Byte → Except DecodeReject (Instr × List Byte)
  | hi :: lo :: rest => (decode (wordOfBytes hi lo)).map (fun i => (i, rest))
  | [_] => .error .truncated
  | [] => .error .truncated

/-! ### Encoding -/

/-- A word in register form `o x y n` (R91). -/
def encodeXyn (o : Nibble) (x y : Reg) (n : Nibble) : Opcode := o ++ BitVec.ofFin (w := 4) x ++ BitVec.ofFin (w := 4) y ++ n

/-- A word in byte-immediate form `o x kk` (R91). -/
def encodeXkk (o : Nibble) (x : Reg) (kk : Byte) : Opcode := o ++ BitVec.ofFin (w := 4) x ++ kk

/-- A word in address form `o nnn` (R91). -/
def encodeNnn (o : Nibble) (nnn : Addr) : Opcode := o ++ nnn

/-- The word of an instruction: the column `encoding` of the opcode table (30_encoding.md R94, R100). -/
def encode : Instr → Opcode
  | .cls => 0x00E0
  | .ret => 0x00EE
  | .sys nnn => encodeNnn 0x0 nnn
  | .jp nnn => encodeNnn 0x1 nnn
  | .call nnn => encodeNnn 0x2 nnn
  | .seImm x kk => encodeXkk 0x3 x kk
  | .sneImm x kk => encodeXkk 0x4 x kk
  | .seReg x y => encodeXyn 0x5 x y 0x0
  | .ldImm x kk => encodeXkk 0x6 x kk
  | .addImm x kk => encodeXkk 0x7 x kk
  | .ldReg x y => encodeXyn 0x8 x y 0x0
  | .orReg x y => encodeXyn 0x8 x y 0x1
  | .andReg x y => encodeXyn 0x8 x y 0x2
  | .xorReg x y => encodeXyn 0x8 x y 0x3
  | .addReg x y => encodeXyn 0x8 x y 0x4
  | .sub x y => encodeXyn 0x8 x y 0x5
  | .shr x y => encodeXyn 0x8 x y 0x6
  | .subn x y => encodeXyn 0x8 x y 0x7
  | .shl x y => encodeXyn 0x8 x y 0xE
  | .sneReg x y => encodeXyn 0x9 x y 0x0
  | .ldI nnn => encodeNnn 0xA nnn
  | .jpV0 nnn => encodeNnn 0xB nnn
  | .rnd x kk => encodeXkk 0xC x kk
  | .drw x y n => encodeXyn 0xD x y n
  | .skp x => encodeXkk 0xE x 0x9E
  | .sknp x => encodeXkk 0xE x 0xA1
  | .ldVxDt x => encodeXkk 0xF x 0x07
  | .ldVxK x => encodeXkk 0xF x 0x0A
  | .ldDtVx x => encodeXkk 0xF x 0x15
  | .ldStVx x => encodeXkk 0xF x 0x18
  | .addIVx x => encodeXkk 0xF x 0x1E
  | .ldFVx x => encodeXkk 0xF x 0x29
  | .ldBVx x => encodeXkk 0xF x 0x33
  | .ldMemVx x => encodeXkk 0xF x 0x55
  | .ldVxMem x => encodeXkk 0xF x 0x65

/-- The high byte of a word, which memory holds at the lower address (20_memory.md R62). -/
def highByte (op : Opcode) : Byte := op.extractLsb' 8 8

/-- The low byte of a word. -/
def lowByte (op : Opcode) : Byte := op.extractLsb' 0 8

/-- The two bytes of an instruction in memory order (R90). -/
def encodeBytes (i : Instr) : List Byte := [highByte (encode i), lowByte (encode i)]

/-! ### The host's numbering of a table word -/

/-- The first word of an instruction whose bits are `w`, numbered as spec/opcode_table.json numbers them; the bits
above `nbits` are zero. -/
def tableOpcode (nbits w : Nat) : Opcode := BitVec.ofNat 16 (w % 2 ^ nbits)

/-- The instruction the decoder reads from that word laid out in memory order (assumption log 11). -/
def decodeTableWord (nbits w : Nat) : Option Instr :=
  match decodeBytes [highByte (tableOpcode nbits w), lowByte (tableOpcode nbits w)] with
  | .ok (i, _) => some i
  | .error _ => none

end Sys2Proof
end

