-- ==== Sys2Proof/Config.lean ====
section
/-! DEFINITION. What an implementation fixes (00_scope.md R9: the parameters the source leaves open) and the one free
value, the random byte (10_state.md R49). -/

namespace Sys2Proof

/-- `P_SYS`: what the system-call space does (R9, 92_eei_decisions.md D3). -/
inductive SysPolicy where
  | fault
  | nop
  deriving DecidableEq, Repr

/-- `P_FX0A`: what Fx0A does (R9, D5). -/
inductive WaitPolicy where
  | await
  | fault
  deriving DecidableEq, Repr

/-- `P_AWAIT_TIMERS`: the timers while a key is awaited (R9, D6). -/
inductive AwaitTimers where
  | frozen
  | decrement
  deriving DecidableEq, Repr

/-- `P_DRAW_WRAP`: how a pixel outside the screen wraps (R9, D8). -/
inductive DrawWrap where
  | flat
  | perAxis
  deriving DecidableEq, Repr

/-- `P_DRAW_LATCH`: whether Dxyn reads its origin before or after `VF` is reset (R9, D9). -/
inductive DrawLatch where
  | beforeReset
  | afterReset
  deriving DecidableEq, Repr

/-- `P_VF_ORDER`: the order of a shift's two writes (R9, D10, 41_alu.md R151). -/
inductive VfOrder where
  | textOrder
  | resultLast
  | flagLast
  deriving DecidableEq, Repr

/-- `P_RESERVED_WRITE`: what a data write to 0x000-0x1FF does (R9, D14). -/
inductive ReservedWritePolicy where
  | fault
  | allow
  deriving DecidableEq, Repr

/-- The parameters of R9, one value of each: what one implementation fixes. They are configuration, not state (10_state.md
R20): nothing changes them (assumption log 1). -/
structure Config where
  /-- `P_SYS`. -/
  sysPolicy : SysPolicy
  /-- `P_FX0A`. -/
  waitPolicy : WaitPolicy
  /-- `P_AWAIT_TIMERS`. -/
  awaitTimers : AwaitTimers
  /-- `P_DRAW_WRAP`. -/
  drawWrap : DrawWrap
  /-- `P_DRAW_LATCH`. -/
  drawLatch : DrawLatch
  /-- `P_VF_ORDER`. -/
  vfOrder : VfOrder
  /-- `P_RESERVED_WRITE`. -/
  reservedWrite : ReservedWritePolicy
  /-- `FONT_DATA`: 16 glyphs of 5 bytes (10_state.md R44). -/
  font : Vector Byte 80
  deriving DecidableEq, Repr

/-- The random-byte input (10_state.md R49, D26): the byte of the `k`-th draw. It has no body, so a claim holds for
every sequence of draws, under no law (free value: assumption log 4). -/
opaque Config.randomByte (k : Nat) : Byte

end Sys2Proof
end

