-- ==== Sys2Proof/Machine/Font.lean ====
section
/-! DEFINITION. The default of every parameter (00_scope.md R9), the font table of 10_state.md R44 among them. -/

namespace Sys2Proof.Machine

/-- The standard glyphs, the default of `FONT_DATA` (10_state.md R44; from general knowledge, as the spec says there:
PRESUMED, unsafe, assumption log 9). -/
def standardFont : Vector Byte 80 :=
  #v[0xF0, 0x90, 0x90, 0x90, 0xF0,   -- 0
     0x20, 0x60, 0x20, 0x20, 0x70,   -- 1
     0xF0, 0x10, 0xF0, 0x80, 0xF0,   -- 2
     0xF0, 0x10, 0xF0, 0x10, 0xF0,   -- 3
     0x90, 0x90, 0xF0, 0x10, 0x10,   -- 4
     0xF0, 0x80, 0xF0, 0x10, 0xF0,   -- 5
     0xF0, 0x80, 0xF0, 0x90, 0xF0,   -- 6
     0xF0, 0x10, 0x20, 0x40, 0x40,   -- 7
     0xF0, 0x90, 0xF0, 0x90, 0xF0,   -- 8
     0xF0, 0x90, 0xF0, 0x10, 0xF0,   -- 9
     0xF0, 0x90, 0xF0, 0x90, 0x90,   -- A
     0xE0, 0x90, 0xE0, 0x90, 0xE0,   -- B
     0xF0, 0x80, 0x80, 0x80, 0xF0,   -- C
     0xE0, 0x90, 0x90, 0x90, 0xE0,   -- D
     0xF0, 0x80, 0xF0, 0x80, 0xF0,   -- E
     0xF0, 0x80, 0xF0, 0x80, 0x80]   -- F

/-- Every parameter at the spec's default (00_scope.md R9). -/
def defaultConfig : Config where
  sysPolicy := .fault
  waitPolicy := .await
  awaitTimers := .frozen
  drawWrap := .flat
  drawLatch := .beforeReset
  vfOrder := .textOrder
  reservedWrite := .fault
  font := standardFont

end Sys2Proof.Machine
end

