-- ==== Sys2Proof/Machine/State.lean ====
section
/-! DEFINITION. The architectural state (10_state.md R20), the fault record (60_exceptions.md R252, R254), the reasons
an operation answers no next state, and the state after reset (10_state.md R41). -/

namespace Sys2Proof.Machine

/-- The fault causes (60_exceptions.md R252). -/
inductive FaultCause where
  | loadError
  | decodeError
  | fetchBounds
  | memBounds
  | reservedWrite
  | stackOverflow
  | stackUnderflow
  | indexOverflow
  | keyIndex
  | unimplemented
  deriving DecidableEq, Repr

/-- What a fault records beside the fetch address and the opcode (R252, R254): the failing address, an exact integer
that may exceed 16 bits; the sum; the key number; or nothing. -/
inductive FaultDetail where
  | nothing
  | address (a : Nat)
  | sum (s : Nat)
  | key (k : Byte)
  deriving DecidableEq, Repr

/-- The fault record `(cause, a, op, detail)` (R254): `op` is absent for FetchBounds only. -/
structure FaultInfo where
  /-- The cause of R252. -/
  cause : FaultCause
  /-- The fetch address of the faulting instruction. -/
  a : Word
  /-- Its opcode. -/
  op : Option Opcode
  /-- What the table of R252 names beside them. -/
  detail : FaultDetail
  deriving DecidableEq, Repr

/-- The run state (10_state.md R39). -/
inductive Mode where
  | running
  | awaitKey (x : Reg)
  | faulted (info : FaultInfo)
  | stopped
  deriving DecidableEq, Repr

/-- The "64×32 matrix of single-bit pixel states" (10_state.md R37): pixel `x + 64*y` is bit `x` of row `y` (DESIGN CHOICE,
safe: assumption log 7). -/
abbrev Display := Vector (BitVec 64) 32

/-- The machine's state. The first twelve fields are the record of 10_state.md R20, which says "Nothing else is state";
`cfg` and `draws` are the model's own (assumption log 1, 4). -/
structure State where
  /-- `Mem` (R20, 20_memory.md R60): the bytes that differ from what `Memory.unlisted` gives, at rising addresses. -/
  mem : List Host.Cell
  /-- `V[0..15]` (R21). -/
  v : Vector Byte 16
  /-- `I` (R24). -/
  i : Word
  /-- `PC` (R25). -/
  pc : Word
  /-- `SP`, 0..16 (R28). -/
  sp : Fin 17
  /-- `Stack[0..15]` (R29). -/
  stack : Vector Word 16
  /-- `DT` (R34). -/
  dt : Byte
  /-- `ST` (R34). -/
  st : Byte
  /-- `Disp[0..2047]` (R37). -/
  disp : Display
  /-- `Dirty` (R38). -/
  dirty : Bool
  /-- `Key[0..15]` (R40). -/
  key : Vector Bool 16
  /-- `Mode` (R39). -/
  mode : Mode
  /-- The parameters of 00_scope.md R9: configuration, which no step and no transaction changes. -/
  cfg : Config
  /-- How many random bytes have been drawn: the cursor of the free value `Config.randomByte`. -/
  draws : Nat
  deriving DecidableEq, Repr

/-- Why the program load creates no state (60_exceptions.md R265). -/
inductive LoadReason where
  /-- The program is longer than 3584 bytes. -/
  | tooLong (length : Nat)
  /-- The host cannot supply the program: the file is missing or unreadable. -/
  | notSupplied
  deriving DecidableEq, Repr

/-- Why an operation of the machine stops without a next state. No step raises one: a fault of R252 with a code above 0 is
TAKEN, a next state in mode `faulted` (assumption log 3). -/
inductive Fault where
  /-- Raised by the host transaction `load` only (R265): no state comes into being. Safe: it is what the spec says. -/
  | loadError (reason : LoadReason)
  deriving DecidableEq, Repr

/-- Why an instruction has no meaning here. -/
inductive Refusal where
  /-- Raised by an arm of `exec` whose instruction has no meaning yet; no arm of this model does. Safe: the machine stops. -/
  | notModelled (mnemonic : String)
  deriving DecidableEq, Repr

/-- The state after a load of the empty program, with every parameter at its default (R41 with L = 0, R290). -/
def State.reset : State where
  mem := []
  v := Vector.replicate 16 0
  i := 0
  pc := 0x200
  sp := 0
  stack := Vector.replicate 16 0
  dt := 0
  st := 0
  disp := Vector.replicate 32 0
  dirty := false
  key := Vector.replicate 16 false
  mode := .running
  cfg := defaultConfig
  draws := 0

end Sys2Proof.Machine
end

