-- ==== Sys2Proof/Machine/Ops.lean ====
section
/-! DEFINITION. The named operations over registers, memory, call stack, display, timers and faults that the meanings
share (00_scope.md R11 and the rules cited at each). -/

namespace Sys2Proof.Machine

/-! ### One update per field -/

/-- `V[x]` (R11). -/
def State.getV (s : State) (x : Reg) : Byte := s.v[x.val]

/-- `V[x] <- b` (R11). -/
def State.setV (s : State) (x : Reg) (b : Byte) : State := { s with v := s.v.set x.val b }

/-- All of `V` at once. -/
def State.setAllV (s : State) (v : Vector Byte 16) : State := { s with v := v }

/-- `I <- w` (R11). -/
def State.setI (s : State) (w : Word) : State := { s with i := w }

/-- `pc <- w` (R11). -/
def State.setPc (s : State) (w : Word) : State := { s with pc := w }

/-- `SP <- n` (R11). -/
def State.setSp (s : State) (n : Fin 17) : State := { s with sp := n }

/-- `Stack[j] <- w` (R11). -/
def State.setStack (s : State) (j : Fin 16) (w : Word) : State := { s with stack := s.stack.set j.val w }

/-- `DT <- b` (R11). -/
def State.setDt (s : State) (b : Byte) : State := { s with dt := b }

/-- `ST <- b` (R11). -/
def State.setSt (s : State) (b : Byte) : State := { s with st := b }

/-- The whole display buffer. -/
def State.setDisp (s : State) (d : Display) : State := { s with disp := d }

/-- `Dirty <- b` (R11). -/
def State.setDirty (s : State) (b : Bool) : State := { s with dirty := b }

/-- `Key[k] <- b`. -/
def State.setKeyFlag (s : State) (k : Key) (b : Bool) : State := { s with key := s.key.set k.val b }

/-- `Mode <- m`. -/
def State.setMode (s : State) (m : Mode) : State := { s with mode := m }

/-- The whole memory. -/
def State.setMem (s : State) (m : List Host.Cell) : State := { s with mem := m }

/-- The cursor of the free value. -/
def State.setDraws (s : State) (k : Nat) : State := { s with draws := k }

/-- `Key[k]` (R11). -/
def State.getKey (s : State) (k : Key) : Bool := s.key[k.val]

/-- `VF`, the flag register, is `V[15]` (00_scope.md R14, 10_state.md R22). -/
def flagReg : Reg := 15

/-! ### Faults (60_exceptions.md R252-R255) -/

/-- A raised fault before it is recorded: its cause and detail. -/
structure Trap where
  /-- The cause (R252). -/
  cause : FaultCause
  /-- The detail (R254). -/
  detail : FaultDetail
  deriving DecidableEq, Repr

/-- The fault is taken: every effect of the step is discarded, so the state is `s0`, as it was before the instruction,
but for `Mode <- Faulted(info)` (R250, R255). There is no handler and nothing else is saved (R261); there is no return
from it (R267). -/
def takeFault (s0 : State) (t : Trap) (op : Option Opcode) : State :=
  s0.setMode (.faulted { cause := t.cause, a := s0.pc, op := op, detail := t.detail })

/-- The outcome of instruction `i` on the state `s0` it was fetched in: what it did, or the fault it raised, taken. The
opcode recorded is `i`'s word, which is the word it was decoded from (DEDUCED, safe: assumption log 5). -/
def conclude (s0 : State) (i : Instr) : Except Trap State → Host.Outcome State Fault Refusal
  | .ok t => .next t
  | .error f => .next (takeFault s0 f (some (encode i)))

/-- Whether a mode is `Faulted`. -/
def Mode.isFaulted : Mode → Bool
  | .faulted _ => true
  | .running | .awaitKey _ | .stopped => false

/-! ### The program counter -/

/-- Step 3 of R250: `PC <- (a + 2) mod 65536` (10_state.md R25, R27). Every meaning starts with it. -/
def advance (s : State) : State := s.setPc (s.pc + 2)

/-- `SkipIf(c)`, on the state after the advance (40_control_flow.md R120). -/
def skipIf (c : Bool) (s : State) : State := if c then s.setPc (s.pc + 2) else s

/-! ### Memory as data: 4096 bytes, kept as the list of those that differ from the reset contents -/

/-- `MEM_SIZE` (00_scope.md R8). -/
def memSize : Nat := 4096

/-- `PROG_BASE` (R8). -/
def progBase : Nat := 0x200

/-- `MAX_PROG` (R8). -/
def maxProg : Nat := 3584

/-- The last address of the reserved region, `RESERVED_END` (R8). -/
def reservedEnd : Nat := 0x1FF

/-- What an unlisted address reads as: the reset contents without a program, the font at 0x000-0x04F and 0 above it
(10_state.md R41, R44; assumption log 8). -/
def Memory.unlisted (font : Vector Byte 80) (a : Nat) : Byte := (font[a]?).getD 0

/-- The byte at address `a`. -/
def Memory.read (font : Vector Byte 80) : List Host.Cell → Nat → Byte
  | [], a => Memory.unlisted font a
  | (k, b) :: rest, a => if k = a then b else Memory.read font rest a

/-- Puts `b` at address `a`, keeping the addresses rising and listing no byte an unlisted address would read as. -/
def Memory.write (font : Vector Byte 80) : List Host.Cell → Nat → Byte → List Host.Cell
  | [], a, b => if b = Memory.unlisted font a then [] else [(a, b)]
  | (k, c) :: rest, a, b =>
    if a < k then (if b = Memory.unlisted font a then (k, c) :: rest else (a, b) :: (k, c) :: rest)
    else if a = k then (if b = Memory.unlisted font a then rest else (a, b) :: rest)
    else (k, c) :: Memory.write font rest a b

/-- The canonical form: rising addresses below 4096, and no entry equal to what the address would read as unlisted. -/
abbrev Memory.wf (font : Vector Byte 80) (m : List Host.Cell) : Prop :=
  m.Pairwise (fun p q => p.1 < q.1) ∧ ∀ c ∈ m, c.1 < 4096 ∧ c.2 ≠ Memory.unlisted font c.1

/-! ### Memory accesses (20_memory.md) -/

/-- `Mem[a]`, with no check. -/
def State.byteAt (s : State) (a : Nat) : Byte := Memory.read s.cfg.font s.mem a

/-- `Mem[a] <- b`, with no check. -/
def State.putByte (s : State) (a : Nat) (b : Byte) : State := s.setMem (Memory.write s.cfg.font s.mem a b)

/-- `MemRead(addr, 1)`: MemBounds above 0xFFF; `addr` is exact (R64). -/
def memRead (s : State) (addr : Nat) : Except Trap Byte :=
  if addr > 0xFFF then .error ⟨.memBounds, .address addr⟩ else .ok (s.byteAt addr)

/-- `MemWrite(addr, 1, b)`: MemBounds above 0xFFF (R65), then ReservedWrite at or below 0x1FF under
`P_RESERVED_WRITE = FAULT` (R66). -/
def memWrite (s : State) (addr : Nat) (b : Byte) : Except Trap State :=
  if addr > 0xFFF then .error ⟨.memBounds, .address addr⟩
  else if s.cfg.reservedWrite = .fault ∧ addr ≤ reservedEnd then .error ⟨.reservedWrite, .address addr⟩
  else .ok (s.putByte addr b)

/-- `n` bytes from `base` up, in ascending order; the first access that fails names the fault (R69, 42_index_memory.md
R183). -/
def memReadBytes (s : State) (base : Nat) : Nat → Except Trap (List Byte)
  | 0 => .ok []
  | n + 1 =>
    match memRead s base with
    | .error f => .error f
    | .ok b =>
      match memReadBytes s (base + 1) n with
      | .error f => .error f
      | .ok bs => .ok (b :: bs)

/-- The bytes stored from `base` up, in ascending order; the first access that fails names the fault (R69, R183). -/
def memWriteBytes (s : State) (base : Nat) : List Byte → Except Trap State
  | [] => .ok s
  | b :: bs =>
    match memWrite s base b with
    | .error f => .error f
    | .ok t => memWriteBytes t (base + 1) bs

/-- `Fetch(a)`: FetchBounds when the two bytes are not both inside memory, else the word with `Mem[a]` in bits 15-8
(R62, R63). -/
def fetch (s : State) (a : Word) : Except Trap Opcode :=
  if a.toNat > 0xFFE then .error ⟨.fetchBounds, .nothing⟩
  else .ok (wordOfBytes (s.byteAt a.toNat) (s.byteAt (a.toNat + 1)))

/-! ### The call stack (10_state.md R29) -/

/-- `Push(w)`: StackOverflow when `SP = 16`. -/
def push (s : State) (w : Word) : Except Trap State :=
  if h : s.sp.val < 16 then .ok ((s.setStack ⟨s.sp.val, h⟩ w).setSp ⟨s.sp.val + 1, by omega⟩)
  else .error ⟨.stackOverflow, .nothing⟩

/-- `Pop()`: StackUnderflow when `SP = 0`; the slot is not cleared. -/
def pop (s : State) : Except Trap (Word × State) :=
  if h : 0 < s.sp.val then
    .ok (s.stack[s.sp.val - 1]'(by have := s.sp.isLt; omega), s.setSp ⟨s.sp.val - 1, by have := s.sp.isLt; omega⟩)
  else .error ⟨.stackUnderflow, .nothing⟩

/-! ### The random-byte input -/

/-- `Rand()`: one byte of the free value, and the cursor moved past it (10_state.md R49, D26; assumption log 4). -/
def rand (s : State) : Byte × State := (Config.randomByte s.draws, s.setDraws (s.draws + 1))

/-! ### The timers (10_state.md R34, R35) -/

/-- One less, with floor 0. -/
def countDown (b : Byte) : Byte := if b = 0 then 0 else b - 1

/-- `Tick()` (R35). -/
def tick (s : State) : State := (s.setDt (countDown s.dt)).setSt (countDown s.st)

/-- Step 6 of R250: a step that completes ticks, a step that faulted does not (R255). `t` is what the instruction left
of a running state. -/
def endStep (t : State) : State := if t.mode.isFaulted then t else tick t

/-- A step in `AwaitKey`: nothing, or the tick alone (44_timers_keypad.md R241). -/
def awaitStep (s : State) : State :=
  match s.cfg.awaitTimers with
  | .frozen => s
  | .decrement => tick s

/-! ### The display (10_state.md R37, 43_display.md) -/

/-- Every pixel 0 (R200). -/
def blankDisplay : Display := Vector.replicate 32 0

/-- `Disp[p]`, pixel `(p mod 64, p div 64)`; a `p` above 2047 is no pixel. -/
def pixel (d : Display) (p : Nat) : Bool :=
  match d[p / 64]? with
  | some row => row.getLsbD (p % 64)
  | none => false

/-- `Disp[p] <- Disp[p] XOR 1`. -/
def flipPixel (d : Display) (p : Nat) : Display :=
  if h : p / 64 < 32 then d.set (p / 64) (d[p / 64] ^^^ BitVec.twoPow 64 (p % 64)) else d

/-- `PixelIndex(px, py)` (R202). -/
def pixelIndex (w : DrawWrap) (px py : Nat) : Nat :=
  match w with
  | .flat => (px + 64 * py) % 2048
  | .perAxis => px % 64 + 64 * (py % 32)

/-- Whether the sprite bit of a row byte at column `c` is 1: bit `7 - c` (R201). -/
def spriteBit (b : Byte) (c : Nat) : Bool := b.getLsbD (7 - c)

/-- The pixels under the 1 bits of one row, in column order (R204). -/
def rowPixels (w : DrawWrap) (cx py : Nat) (b : Byte) : List Nat :=
  ((List.range 8).filter (fun c => spriteBit b c)).map (fun c => pixelIndex w (cx + c) py)

/-- The pixels under the 1 bits of a sprite whose first row is drawn at `py`, in the order R204 takes them. -/
def spritePixels (w : DrawWrap) (cx : Nat) : Nat → List Byte → List Nat
  | _, [] => []
  | py, b :: bs => rowPixels w cx py b ++ spritePixels w cx (py + 1) bs

/-- The inner body of R204 over those pixels: a pixel that is 1 is a collision, and each is XORed with 1. -/
def blit : List Nat → Display × Bool → Display × Bool
  | [], acc => acc
  | p :: ps, (d, hit) => blit ps (flipPixel d p, hit || pixel d p)

end Sys2Proof.Machine
end

