-- ==== Sys2Proof/Machine/Operands.lean ====
section
/-! DEFINITION. The operand forms: immediates, addresses through I, the font address, the key number, register lists. -/

namespace Sys2Proof.Machine

/-- `zext_16(nnn)` (30_encoding.md R93). -/
def zextAddr (nnn : Addr) : Word := nnn.zeroExtend 16

/-- `zext_16(b)`. -/
def zextByte (b : Byte) : Word := b.zeroExtend 16

/-- The exact address of the first byte reached through `I` (42_index_memory.md R183, 20_memory.md R64). -/
def indexAddress (s : State) : Nat := s.i.toNat

/-- The font address of a digit: `zext_16(b) * 5`, not masked (R182). -/
def fontAddress (b : Byte) : Word := zextByte b * 5

/-- The target of an indexed jump: `zext_16(nnn) + zext_16(V[0])` (40_control_flow.md R130). -/
def indexedTarget (nnn : Addr) (s : State) : Word := zextAddr nnn + zextByte (s.getV 0)

/-- The key a register names: KeyIndex when its value is above 0xF (44_timers_keypad.md R234, R235). -/
def keyOperand (s : State) (x : Reg) : Except Trap Key :=
  if h : (s.getV x).toNat < 16 then .ok ⟨(s.getV x).toNat, h⟩ else .error ⟨.keyIndex, .key (s.getV x)⟩

/-- `V[0], ..., V[x]`, the bytes of a register dump (42_index_memory.md R185). -/
def dumpBytes (s : State) (x : Reg) : List Byte := s.v.toList.take (x.val + 1)

/-- `V[j] <- bs[j]` for every `j` the list reaches (R186). -/
def State.loadV (s : State) (bs : List Byte) : State := s.setAllV (Vector.ofFn fun j => (bs[j.val]?).getD s.v[j.val])

/-- The decimal digits of a byte, hundreds first (R184). -/
def bcdDigits (b : Byte) : List Byte :=
  [BitVec.ofNat 8 (b.toNat / 100), BitVec.ofNat 8 (b.toNat / 10 % 10), BitVec.ofNat 8 (b.toNat % 10)]

/-- The origin of a draw: `V[x]`, `V[y]` before or after `VF` is reset, by `P_DRAW_LATCH` (43_display.md R204). -/
def drawOrigin (s : State) (x y : Reg) : Byte × Byte :=
  match s.cfg.drawLatch with
  | .beforeReset => (s.getV x, s.getV y)
  | .afterReset => ((s.setV flagReg 0).getV x, (s.setV flagReg 0).getV y)

end Sys2Proof.Machine
end

