-- ==== Sys2Proof/Machine/Flags.lean ====
section
/-! DEFINITION. The results and flags of the arithmetic (41_alu.md R150, 10_state.md R32): computed on exact integers
and narrowed at the end. -/

namespace Sys2Proof.Machine

/-- A condition as the value of `VF`: 1 or 0. -/
def flagByte (c : Bool) : Byte := if c then 1 else 0

/-- `(p + q) mod 256`. -/
def sumByte (p q : Byte) : Byte := BitVec.ofNat 8 (p.toNat + q.toNat)

/-- 1 iff the exact sum exceeds 255 (R158). -/
def carryFlag (p q : Byte) : Byte := flagByte (p.toNat + q.toNat > 255)

/-- `(p - q) mod 256`. -/
def diffByte (p q : Byte) : Byte := BitVec.ofInt 8 ((p.toNat : Int) - q.toNat)

/-- 1 iff `p >= q`: no borrow in `p - q` (R159, R161). -/
def noBorrowFlag (p q : Byte) : Byte := flagByte (p.toNat ≥ q.toNat)

/-- `v >> 1`. -/
def shiftRight1 (v : Byte) : Byte := v >>> 1

/-- `(v << 1) mod 256`. -/
def shiftLeft1 (v : Byte) : Byte := v <<< 1

/-- `v AND 1`, the bit a right shift moves out (R160). -/
def lowBit (v : Byte) : Byte := v &&& 1

/-- `v >> 7`, the bit a left shift moves out (R162). -/
def highBit (v : Byte) : Byte := v >>> 7

/-- `V[x] <- result`, then `V[F] <- flag`: the order of 8xy4, 8xy5, 8xy7 under every `P_VF_ORDER` (R151). -/
def writeResultFlag (s : State) (x : Reg) (result flag : Byte) : State := (s.setV x result).setV flagReg flag

/-- The two writes of a shift in the order of `P_VF_ORDER` (R151, R160, R162). Under `TEXT_ORDER` the second reads
`V[x]` after the first. -/
def writeShift (s : State) (x : Reg) (shift : Byte → Byte) (flag : Byte) : State :=
  match s.cfg.vfOrder with
  | .textOrder => (s.setV flagReg flag).setV x (shift ((s.setV flagReg flag).getV x))
  | .resultLast => (s.setV flagReg flag).setV x (shift (s.getV x))
  | .flagLast => (s.setV x (shift (s.getV x))).setV flagReg flag

end Sys2Proof.Machine
end

