-- ==== Sys2Proof/Machine/Alu.lean ====
section
/-! DEFINITION. Register loads and arithmetic (41_alu.md). None of these touches memory and none faults. -/

namespace Sys2Proof.Machine

/-- LD Vx, byte (R152). -/
def execLdImm (x : Reg) (kk : Byte) (s : State) : Host.Outcome State Fault Refusal :=
  .next ((advance s).setV x kk)

/-- ADD Vx, byte (R153): no flag. -/
def execAddImm (x : Reg) (kk : Byte) (s : State) : Host.Outcome State Fault Refusal :=
  .next ((advance s).setV x (sumByte (s.getV x) kk))

/-- LD Vx, Vy (R154). -/
def execLdReg (x y : Reg) (s : State) : Host.Outcome State Fault Refusal :=
  .next ((advance s).setV x (s.getV y))

/-- OR Vx, Vy (R155): `VF` is not reset. -/
def execOrReg (x y : Reg) (s : State) : Host.Outcome State Fault Refusal :=
  .next ((advance s).setV x (s.getV x ||| s.getV y))

/-- AND Vx, Vy (R156): `VF` is not reset. -/
def execAndReg (x y : Reg) (s : State) : Host.Outcome State Fault Refusal :=
  .next ((advance s).setV x (s.getV x &&& s.getV y))

/-- XOR Vx, Vy (R157): `VF` is not reset. -/
def execXorReg (x y : Reg) (s : State) : Host.Outcome State Fault Refusal :=
  .next ((advance s).setV x (s.getV x ^^^ s.getV y))

/-- ADD Vx, Vy (R158): the sum, then the carry. -/
def execAddReg (x y : Reg) (s : State) : Host.Outcome State Fault Refusal :=
  .next (writeResultFlag (advance s) x (sumByte (s.getV x) (s.getV y)) (carryFlag (s.getV x) (s.getV y)))

/-- SUB Vx, Vy (R159): the difference, then NOT borrow. -/
def execSub (x y : Reg) (s : State) : Host.Outcome State Fault Refusal :=
  .next (writeResultFlag (advance s) x (diffByte (s.getV x) (s.getV y)) (noBorrowFlag (s.getV x) (s.getV y)))

/-- SHR Vx, Vy (R160): `y` is encoded but ignored. -/
def execShr (x _y : Reg) (s : State) : Host.Outcome State Fault Refusal :=
  .next (writeShift (advance s) x shiftRight1 (lowBit (s.getV x)))

/-- SUBN Vx, Vy (R161): the reverse difference, then NOT borrow. -/
def execSubn (x y : Reg) (s : State) : Host.Outcome State Fault Refusal :=
  .next (writeResultFlag (advance s) x (diffByte (s.getV y) (s.getV x)) (noBorrowFlag (s.getV y) (s.getV x)))

/-- SHL Vx, Vy (R162): `y` is encoded but ignored. -/
def execShl (x _y : Reg) (s : State) : Host.Outcome State Fault Refusal :=
  .next (writeShift (advance s) x shiftLeft1 (highBit (s.getV x)))

/-- RND Vx, byte (R163): one draw, whatever `kk` is. -/
def execRnd (x : Reg) (kk : Byte) (s : State) : Host.Outcome State Fault Refusal :=
  .next ((rand (advance s)).2.setV x ((rand (advance s)).1 &&& kk))

end Sys2Proof.Machine
end

