-- ==== Sys2Proof/Machine/Control.lean ====
section
/-! DEFINITION. Control transfer and skips (40_control_flow.md). Each meaning runs on the state the instruction was fetched
in, `PC = a`, and begins with the advance. -/

namespace Sys2Proof.Machine

/-- RET (R122). -/
def execRet (s : State) : Host.Outcome State Fault Refusal :=
  conclude s .ret <|
    match pop (advance s) with
    | .error f => .error f
    | .ok (w, t) => .ok (t.setPc w)

/-- SYS addr (R129): DecodeError under `P_SYS = FAULT`, nothing under `NOP`. -/
def execSys (nnn : Addr) (s : State) : Host.Outcome State Fault Refusal :=
  conclude s (.sys nnn) <|
    match s.cfg.sysPolicy with
    | .fault => .error ⟨.decodeError, .nothing⟩
    | .nop => .ok (advance s)

/-- JP addr (R123). -/
def execJp (nnn : Addr) (s : State) : Host.Outcome State Fault Refusal :=
  .next ((advance s).setPc (zextAddr nnn))

/-- CALL addr (R124): the value pushed is the advanced `PC`. -/
def execCall (nnn : Addr) (s : State) : Host.Outcome State Fault Refusal :=
  conclude s (.call nnn) <|
    match push (advance s) (advance s).pc with
    | .error f => .error f
    | .ok t => .ok (t.setPc (zextAddr nnn))

/-- SE Vx, byte (R125). -/
def execSeImm (x : Reg) (kk : Byte) (s : State) : Host.Outcome State Fault Refusal :=
  .next (skipIf (s.getV x == kk) (advance s))

/-- SNE Vx, byte (R126). -/
def execSneImm (x : Reg) (kk : Byte) (s : State) : Host.Outcome State Fault Refusal :=
  .next (skipIf (s.getV x != kk) (advance s))

/-- SE Vx, Vy (R127). -/
def execSeReg (x y : Reg) (s : State) : Host.Outcome State Fault Refusal :=
  .next (skipIf (s.getV x == s.getV y) (advance s))

/-- SNE Vx, Vy (R128). -/
def execSneReg (x y : Reg) (s : State) : Host.Outcome State Fault Refusal :=
  .next (skipIf (s.getV x != s.getV y) (advance s))

/-- JP V0, addr (R130): no mask, no wrap. -/
def execJpV0 (nnn : Addr) (s : State) : Host.Outcome State Fault Refusal :=
  .next ((advance s).setPc (indexedTarget nnn s))

end Sys2Proof.Machine
end

