-- ==== Sys2Proof/Machine/Display.lean ====
section
/-! DEFINITION. Clear and the sprite engine (43_display.md). -/

namespace Sys2Proof.Machine

/-- CLS (R200). -/
def execCls (s : State) : Host.Outcome State Fault Refusal :=
  .next (((advance s).setDisp blankDisplay).setDirty true)

/-- The effect of a draw whose rows have been read: `VF` reset, the pixels XORed, `VF` set on a collision, `Dirty` set
(R204). -/
def drawRows (s : State) (x y : Reg) (rows : List Byte) : State :=
  let origin := drawOrigin s x y
  let pixels := spritePixels s.cfg.drawWrap origin.1.toNat origin.2.toNat rows
  let drawn := blit pixels (s.disp, false)
  ((s.setV flagReg (flagByte drawn.2)).setDisp drawn.1).setDirty true

/-- DRW Vx, Vy, nibble (R204): all rows are read before any write. -/
def execDrw (x y : Reg) (n : Nibble) (s : State) : Host.Outcome State Fault Refusal :=
  conclude s (.drw x y n) <|
    match memReadBytes (advance s) (indexAddress s) n.toNat with
    | .error f => .error f
    | .ok rows => .ok (drawRows (advance s) x y rows)

end Sys2Proof.Machine
end

