-- ==== Sys2Proof/Machine/IndexMemory.lean ====
section
/-! DEFINITION. The index register and the memory transfers through it (42_index_memory.md). None changes `I` but the three
that write it (R183). -/

namespace Sys2Proof.Machine

/-- LD I, addr (R180). -/
def execLdI (nnn : Addr) (s : State) : Host.Outcome State Fault Refusal :=
  .next ((advance s).setI (zextAddr nnn))

/-- ADD I, Vx (R181): IndexOverflow when the exact sum exceeds 0xFFFF. -/
def execAddIVx (x : Reg) (s : State) : Host.Outcome State Fault Refusal :=
  conclude s (.addIVx x) <|
    if s.i.toNat + (s.getV x).toNat > 0xFFFF then .error ⟨.indexOverflow, .sum (s.i.toNat + (s.getV x).toNat)⟩
    else .ok ((advance s).setI (BitVec.ofNat 16 (s.i.toNat + (s.getV x).toNat)))

/-- LD F, Vx (R182). -/
def execLdFVx (x : Reg) (s : State) : Host.Outcome State Fault Refusal :=
  .next ((advance s).setI (fontAddress (s.getV x)))

/-- LD B, Vx (R184): the three digits at I, I+1, I+2. -/
def execLdBVx (x : Reg) (s : State) : Host.Outcome State Fault Refusal :=
  conclude s (.ldBVx x) (memWriteBytes (advance s) (indexAddress s) (bcdDigits (s.getV x)))

/-- LD [I], Vx (R185): V0..Vx at I..I+x. -/
def execLdMemVx (x : Reg) (s : State) : Host.Outcome State Fault Refusal :=
  conclude s (.ldMemVx x) (memWriteBytes (advance s) (indexAddress s) (dumpBytes s x))

/-- LD Vx, [I] (R186): V0..Vx from I..I+x. -/
def execLdVxMem (x : Reg) (s : State) : Host.Outcome State Fault Refusal :=
  conclude s (.ldVxMem x) <|
    match memReadBytes (advance s) (indexAddress s) (x.val + 1) with
    | .error f => .error f
    | .ok bs => .ok ((advance s).loadV bs)

end Sys2Proof.Machine
end

