-- ==== Sys2Proof/Machine/TimersKeypad.lean ====
section
/-! DEFINITION. The timer and keypad instructions (44_timers_keypad.md). The tick that follows each is `endStep`'s. -/

namespace Sys2Proof.Machine

/-- LD Vx, DT (R230): the value before this step's tick. -/
def execLdVxDt (x : Reg) (s : State) : Host.Outcome State Fault Refusal :=
  .next ((advance s).setV x s.dt)

/-- LD DT, Vx (R231). -/
def execLdDtVx (x : Reg) (s : State) : Host.Outcome State Fault Refusal :=
  .next ((advance s).setDt (s.getV x))

/-- LD ST, Vx (R232). -/
def execLdStVx (x : Reg) (s : State) : Host.Outcome State Fault Refusal :=
  .next ((advance s).setSt (s.getV x))

/-- SKP Vx (R234). -/
def execSkp (x : Reg) (s : State) : Host.Outcome State Fault Refusal :=
  conclude s (.skp x) <|
    match keyOperand s x with
    | .error f => .error f
    | .ok k => .ok (skipIf (s.getKey k) (advance s))

/-- SKNP Vx (R235). -/
def execSknp (x : Reg) (s : State) : Host.Outcome State Fault Refusal :=
  conclude s (.sknp x) <|
    match keyOperand s x with
    | .error f => .error f
    | .ok k => .ok (skipIf (!s.getKey k) (advance s))

/-- LD Vx, K (R240): the wait, or Unimplemented, by `P_FX0A`. -/
def execLdVxK (x : Reg) (s : State) : Host.Outcome State Fault Refusal :=
  conclude s (.ldVxK x) <|
    match s.cfg.waitPolicy with
    | .await => .ok ((advance s).setMode (.awaitKey x))
    | .fault => .error ⟨.unimplemented, .nothing⟩

end Sys2Proof.Machine
end

