-- ==== Sys2Proof/Machine/Step.lean ====
section
/-! DEFINITION. The step (60_exceptions.md R250), and where its next instruction lies in memory. -/

namespace Sys2Proof.Machine

/-- One step (R250): nothing in `Faulted` or `Stopped`; the wait in `AwaitKey`; else fetch, decode, execute, tick, with
a fault of fetch or decode taken here and one of the instruction taken by its meaning. -/
def step (s : State) : Host.Outcome State Fault Refusal :=
  match s.mode with
  | .faulted _ => .next s
  | .stopped => .next s
  | .awaitKey _ => .next (awaitStep s)
  | .running =>
    match fetch s s.pc with
    | .error f => .next (takeFault s f none)
    | .ok op =>
      match decode op with
      | .error _ => .next (takeFault s ⟨.decodeError, .nothing⟩ (some op))
      | .ok i =>
        match exec i s with
        | .next t => .next (endStep t)
        | .fault r => .fault r
        | .refused r => .refused r

/-- `s` with the table word `w` stored at `PC`, high byte first (20_memory.md R62), and the mode in which a step fetches.
A `PC` above 0xFFE has no two bytes to store to, and nothing is stored (assumption log 11). -/
def State.withFetchWord (s : State) (nbits w : Nat) : State :=
  if s.pc.toNat > 0xFFE then s.setMode .running
  else
    ((s.putByte s.pc.toNat (highByte (tableOpcode nbits w))).putByte (s.pc.toNat + 1)
      (lowByte (tableOpcode nbits w))).setMode .running

end Sys2Proof.Machine
end

