-- ==== Sys2Proof/Machine/Transactions.lean ====
section
/-! DEFINITION. What the host does to the core between steps (60_exceptions.md R275-R284). -/

namespace Sys2Proof.Machine

/-! ### Load (R277, R265, R290) -/

/-- The reset state without a program, for an implementation with parameters `cfg`, when `draws` random bytes have
been taken (10_state.md R41). The provider of random bytes is not part of the engine, so its cursor is given
(assumption log 4). -/
def initial (cfg : Config) (draws : Nat) : State := { State.reset with cfg := cfg, draws := draws }

/-- Program bytes in file order from address `a` up. -/
def placeBytes (s : State) : Nat → List Byte → State
  | _, [] => s
  | a, b :: bs => placeBytes (s.putByte a b) (a + 1) bs

/-- `Load(bytes)`: LoadError when the host supplies no file or more than 3584 bytes, and then no state comes into being
(R265); else the reset state with the program from 0x200 (R277). -/
def load (cfg : Config) (draws : Nat) : Option (List Byte) → Host.Outcome State Fault Refusal
  | none => .fault (.loadError .notSupplied)
  | some bytes =>
    if bytes.length > maxProg then .fault (.loadError (.tooLong bytes.length))
    else .next (placeBytes (initial cfg draws) progBase bytes)

/-! ### Inputs -/

/-- `SetKey(k, b)` (R280). -/
def setKey (s : State) (k : Key) (b : Bool) : State := s.setKeyFlag k b

/-- `KeyEvent(k)`: completes a wait, and has no effect otherwise (R281, 44_timers_keypad.md R242). -/
def keyEvent (s : State) (k : Key) : State :=
  match s.mode with
  | .awaitKey x => (s.setV x (BitVec.ofNat 8 k.val)).setMode .running
  | .running | .faulted _ | .stopped => s

/-- `Stop()` (R283). -/
def stop (s : State) : State :=
  match s.mode with
  | .running | .awaitKey _ => s.setMode .stopped
  | .faulted _ | .stopped => s

/-! ### Observations -/

/-- `ReadDisplay()`: the 2048 pixels, row-major (R278). -/
def readDisplay (s : State) : List Bool := (List.range 2048).map (pixel s.disp)

/-- `TakeDirty()`: the flag, and the state with it cleared (R279). -/
def takeDirty (s : State) : Bool × State := (s.dirty, s.setDirty false)

/-- `ReadStatus()`: the mode with its fault record, `DT`, `ST` (R284). -/
def readStatus (s : State) : Mode × Byte × Byte := (s.mode, s.dt, s.st)

/-- The code of a fault cause (R252). -/
def faultCode : FaultCause → Nat
  | .loadError => 0
  | .decodeError => 1
  | .fetchBounds => 2
  | .memBounds => 3
  | .reservedWrite => 4
  | .stackOverflow => 5
  | .stackUnderflow => 6
  | .indexOverflow => 7
  | .keyIndex => 8
  | .unimplemented => 9

/-! ### All of them -/

/-- A transaction of R275. -/
inductive Transaction where
  | load (bytes : Option (List Byte))
  | step
  | setKey (k : Key) (b : Bool)
  | keyEvent (k : Key)
  | readDisplay
  | takeDirty
  | readStatus
  | stop
  deriving DecidableEq, Repr

/-- What a transaction does to the state; what it answers is the functions above. A load puts a new engine in place of
the old one: nothing of the earlier run survives it (R290), and the provider of random bytes goes on. -/
def transact (s : State) : Transaction → Host.Outcome State Fault Refusal
  | .load bytes => Sys2Proof.Machine.load s.cfg s.draws bytes
  | .step => Sys2Proof.Machine.step s
  | .setKey k b => .next (Sys2Proof.Machine.setKey s k b)
  | .keyEvent k => .next (Sys2Proof.Machine.keyEvent s k)
  | .readDisplay => .next s
  | .takeDirty => .next (Sys2Proof.Machine.takeDirty s).2
  | .readStatus => .next s
  | .stop => .next (Sys2Proof.Machine.stop s)

end Sys2Proof.Machine
end

