-- ==== Sys2Proof/Safety.lean ====
section
/-! DEFINITION. The terms claims are stated in: frames, the invariants, the write tables of 10_state.md R23-R40, and the
spec's own description of illegal words and of sprites. None of these is used by the machine. -/

namespace Sys2Proof.Machine

/-! ### Frames -/

/-- The names of the state's fields. -/
inductive Field where
  | mem | v | i | pc | sp | stack | dt | st | disp | dirty | key | mode | cfg | draws
  deriving DecidableEq, Repr

/-- Field `f` reads in `t` as it reads in `s`; memory is compared byte by byte. -/
def KeepsField (s t : State) : Field → Prop
  | .mem => ∀ a, t.byteAt a = s.byteAt a
  | .v => t.v = s.v
  | .i => t.i = s.i
  | .pc => t.pc = s.pc
  | .sp => t.sp = s.sp
  | .stack => t.stack = s.stack
  | .dt => t.dt = s.dt
  | .st => t.st = s.st
  | .disp => t.disp = s.disp
  | .dirty => t.dirty = s.dirty
  | .key => t.key = s.key
  | .mode => t.mode = s.mode
  | .cfg => t.cfg = s.cfg
  | .draws => t.draws = s.draws

/-- Every field outside `fs` is kept. -/
def KeepsAllBut (fs : List Field) (s t : State) : Prop := ∀ f, f ∉ fs → KeepsField s t f

/-- Every general register but those of `rs` is kept. -/
def KeepsRegsBut (rs : List Reg) (s t : State) : Prop := ∀ r, r ∉ rs → t.getV r = s.getV r

/-- Every byte of memory is kept but the `n` from address `a` up. -/
def KeepsBytesBut (a n : Nat) (s t : State) : Prop := ∀ b, b < a ∨ a + n ≤ b → t.byteAt b = s.byteAt b

/-! ### Faults and ends of a run -/

/-- `s` with the fault record in `Mode` and nothing else changed (60_exceptions.md R254, R255). -/
def faultedWith (s : State) (cause : FaultCause) (op : Option Opcode) (detail : FaultDetail) : State :=
  { s with mode := .faulted { cause := cause, a := s.pc, op := op, detail := detail } }

/-- A good state has not faulted: the postcondition R288 asks a claim to take. -/
def NotFaulted (s : State) : Prop := s.mode.isFaulted = false

/-! ### Invariants -/

/-- The memory is in canonical form. -/
def MemoryCanonical (s : State) : Prop := Memory.wf s.cfg.font s.mem

/-- Where writes to the reserved region fault, 0x000-0x1FF holds the font and zeros (10_state.md R43, 20_memory.md
R61, R66). -/
def ReservedIntact (s : State) : Prop :=
  s.cfg.reservedWrite = .fault → ∀ a, a ≤ 0x1FF → s.byteAt a = if h : a < 80 then s.cfg.font[a] else 0

/-- The values of `PC` that 10_state.md R27 allows for, with the return addresses `RET` may give it: no advance of such
a `PC` reaches the 16-bit wrap. -/
def PcInReach (s : State) : Prop :=
  s.pc.toNat ≤ 0x10FE ∧ ∀ j : Fin 16, (s.stack[j.val]).toNat ≤ 0x1000

/-! ### What an instruction may write (10_state.md R23, 20_memory.md R69) -/

/-- The registers that the table of R23 says the instruction writes. For Fx0A the write is the key event's. -/
def writesReg : Instr → Reg → Bool
  | .ldImm x _, r | .addImm x _, r | .rnd x _, r => r == x
  | .ldReg x _, r | .orReg x _, r | .andReg x _, r | .xorReg x _, r => r == x
  | .addReg x _, r | .sub x _, r | .subn x _, r | .shr x _, r | .shl x _, r => r == x || r == 15
  | .drw _ _ _, r => r == 15
  | .ldVxDt x, r => r == x
  | .ldVxMem x, r => decide (r.val ≤ x.val)
  | .cls, _ | .ret, _ | .sys _, _ | .jp _, _ | .call _, _ | .seImm _ _, _ | .sneImm _ _, _ | .seReg _ _, _
  | .sneReg _ _, _ | .ldI _, _ | .jpV0 _, _ | .skp _, _ | .sknp _, _ | .ldVxK _, _ | .ldDtVx _, _ | .ldStVx _, _
  | .addIVx _, _ | .ldFVx _, _ | .ldBVx _, _ | .ldMemVx _, _ => false

/-- How many bytes from `I` up the instruction stores (R69). -/
def storeCount : Instr → Nat
  | .ldBVx _ => 3
  | .ldMemVx x => x.val + 1
  | .cls | .ret | .sys _ | .jp _ | .call _ | .seImm _ _ | .sneImm _ _ | .seReg _ _ | .ldImm _ _ | .addImm _ _
  | .ldReg _ _ | .orReg _ _ | .andReg _ _ | .xorReg _ _ | .addReg _ _ | .sub _ _ | .shr _ _ | .subn _ _ | .shl _ _
  | .sneReg _ _ | .ldI _ | .jpV0 _ | .rnd _ _ | .drw _ _ _ | .skp _ | .sknp _ | .ldVxDt _ | .ldVxK _ | .ldDtVx _
  | .ldStVx _ | .addIVx _ | .ldFVx _ | .ldVxMem _ => 0

/-! ### Illegal words (30_encoding.md R97) -/

/-- The failing words, group by group, as R97 lists them. -/
def IllegalWord (p : SysPolicy) (op : Opcode) : Prop :=
  (p = .fault ∧ op.toNat < 0x1000 ∧ op.toNat ≠ 0x00E0 ∧ op.toNat ≠ 0x00EE)
  ∨ ((op.toNat / 0x1000 = 0x5 ∨ op.toNat / 0x1000 = 0x9) ∧ op.toNat % 16 ≠ 0)
  ∨ (op.toNat / 0x1000 = 0x8 ∧ op.toNat % 16 ∈ [0x8, 0x9, 0xA, 0xB, 0xC, 0xD, 0xF])
  ∨ (op.toNat / 0x1000 = 0xE ∧ op.toNat % 256 ∉ [0x9E, 0xA1])
  ∨ (op.toNat / 0x1000 = 0xF ∧ op.toNat % 256 ∉ [0x07, 0x0A, 0x15, 0x18, 0x1E, 0x29, 0x33, 0x55, 0x65])

/-- The word at `PC`, high byte first (20_memory.md R62). -/
def wordAtPc (s : State) : Opcode := s.byteAt s.pc.toNat ++ s.byteAt (s.pc.toNat + 1)

/-! ### Sprites (43_display.md R201, R202, R204) -/

/-- The origin coordinate a draw takes from register `r`: under `AFTER_RESET`, `VF` has been reset to 0 (R204). -/
def originValue (s : State) (r : Reg) : Nat :=
  if s.cfg.drawLatch = .afterReset ∧ r = 15 then 0 else (s.getV r).toNat

/-- The pixel at exact coordinates `(px, py)` (R202). -/
def wrappedIndex (w : DrawWrap) (px py : Nat) : Nat :=
  match w with
  | .flat => (px + 64 * py) % 2048
  | .perAxis => px % 64 + 64 * (py % 32)

/-- Some 1 bit of the sprite of `n` rows at `Mem[I]`, drawn at the origin in `V[x]`, `V[y]`, lands on pixel `p`. -/
def SpriteCovers (s : State) (x y : Reg) (n p : Nat) : Prop :=
  ∃ r c, r < n ∧ c < 8 ∧ (s.byteAt (s.i.toNat + r)).getLsbD (7 - c) = true
    ∧ p = wrappedIndex s.cfg.drawWrap (originValue s x + c) (originValue s y + r)

end Sys2Proof.Machine
end

