-- ==== Sys2Proof/Certificates/Slice0/Obligations.lean ====
section
/-! DEFINITION. The statements about the machine, for the provers. Each docstring names the rules it formalises. -/

open Sys2Proof Sys2Proof.Machine

/-! ## Encoding -/

/-- R92's four words, and one word of every row of the table written out from R94. All but R92's four are general knowledge
of the spec's (assumption log 10). That 0x0123 decodes, whatever `P_SYS` is, is the model's reading (assumption log 2): R94
raises DecodeError there under `P_SYS = FAULT`, and here `sys`'s meaning raises it. -/
def Obligations.SampleWordsDecode : Prop :=
  (decode 0xA200 = .ok (.ldI 0x200) ∧ decode 0x6005 = .ok (.ldImm 0 0x05) ∧ decode 0x610A = .ok (.ldImm 1 0x0A)
    ∧ decode 0x8014 = .ok (.addReg 0 1))
  ∧ (decode 0x00E0 = .ok .cls ∧ decode 0x00EE = .ok .ret ∧ decode 0x0123 = .ok (.sys 0x123)
    ∧ decode 0x1234 = .ok (.jp 0x234) ∧ decode 0x2ABC = .ok (.call 0xABC) ∧ decode 0xBF80 = .ok (.jpV0 0xF80))
  ∧ (decode 0x3C42 = .ok (.seImm 12 0x42) ∧ decode 0x4D24 = .ok (.sneImm 13 0x24)
    ∧ decode 0x5120 = .ok (.seReg 1 2) ∧ decode 0x9AB0 = .ok (.sneReg 10 11)
    ∧ decode 0x72F0 = .ok (.addImm 2 0xF0) ∧ decode 0xC30F = .ok (.rnd 3 0x0F))
  ∧ (decode 0x8150 = .ok (.ldReg 1 5) ∧ decode 0x8261 = .ok (.orReg 2 6) ∧ decode 0x8372 = .ok (.andReg 3 7)
    ∧ decode 0x8483 = .ok (.xorReg 4 8) ∧ decode 0x8594 = .ok (.addReg 5 9) ∧ decode 0x86A5 = .ok (.sub 6 10)
    ∧ decode 0x87B6 = .ok (.shr 7 11) ∧ decode 0x88C7 = .ok (.subn 8 12) ∧ decode 0x89DE = .ok (.shl 9 13))
  ∧ (decode 0xD12F = .ok (.drw 1 2 15) ∧ decode 0xE79E = .ok (.skp 7) ∧ decode 0xE8A1 = .ok (.sknp 8))
  ∧ (decode 0xF307 = .ok (.ldVxDt 3) ∧ decode 0xF50A = .ok (.ldVxK 5) ∧ decode 0xF015 = .ok (.ldDtVx 0)
    ∧ decode 0xF118 = .ok (.ldStVx 1) ∧ decode 0xF21E = .ok (.addIVx 2) ∧ decode 0xF429 = .ok (.ldFVx 4)
    ∧ decode 0xF633 = .ok (.ldBVx 6) ∧ decode 0xFE55 = .ok (.ldMemVx 14) ∧ decode 0xFF65 = .ok (.ldVxMem 15))

/-- The decoder reads back every word the encoder writes: no operand bit is dropped (R91, R93, R94). For `sys` it says that
0nnn decodes under either `P_SYS`, which is the model's reading (assumption log 2): R94 raises DecodeError there under
`P_SYS = FAULT`. The table itself is the spec's general knowledge (assumption log 10). -/
def Obligations.DecodeOfEncode : Prop :=
  ∀ i : Instr, i.wellFormed = true → decode (encode i) = .ok i

/-- The other direction (R94, R98): a word decodes to the one instruction whose word it is, and that instruction is
well-formed. As in `DecodeOfEncode`, 0nnn decodes under either `P_SYS` (assumption log 2). -/
def Obligations.EncodeOfDecode : Prop :=
  ∀ (op : Opcode) (i : Instr), decode op = .ok i → encode i = op ∧ i.wellFormed = true

/-! ## Load and reset -/

/-- R41, R277: what a load of at most 3584 bytes leaves. The zeros of the display, `Dirty`, the free memory and the keypad
and the mode are the spec's decision D19 (assumption log 8 for memory). -/
def Obligations.LoadGivesResetState : Prop :=
  ∀ (cfg : Config) (draws : Nat) (bytes : List Byte), bytes.length ≤ 3584 →
    ∃ t, load cfg draws (some bytes) = .next t
      ∧ (∀ a, a < 4096 → t.byteAt a =
          if h : a < 80 then cfg.font[a]
          else if h : 0x200 ≤ a ∧ a - 0x200 < bytes.length then bytes[a - 0x200] else 0)
      ∧ (∀ r, t.getV r = 0) ∧ t.i = 0 ∧ t.pc = 0x200 ∧ t.sp = 0 ∧ (∀ j : Fin 16, t.stack[j.val] = 0)
      ∧ t.dt = 0 ∧ t.st = 0 ∧ (∀ p, p < 2048 → pixel t.disp p = false) ∧ t.dirty = false
      ∧ (∀ k, t.getKey k = false) ∧ t.mode = .running ∧ t.cfg = cfg

/-- R265: a program that is too long, or that the host cannot supply, creates no state. -/
def Obligations.LoadRefused : Prop :=
  ∀ (cfg : Config) (draws : Nat),
    load cfg draws none = .fault (.loadError .notSupplied)
    ∧ ∀ bytes : List Byte, 3584 < bytes.length →
        load cfg draws (some bytes) = .fault (.loadError (.tooLong bytes.length))

/-- The three invariants below hold at reset, by the model's choices: the canonical form of memory is the model's own
representation and the zeros of 0x050-0x1FF are the spec's decision D19 (assumption log 8), and the reset state is the load
of an empty program (assumption log 11). -/
def Obligations.InvariantsAtReset : Prop :=
  MemoryCanonical State.reset ∧ ReservedIntact State.reset ∧ PcInReach State.reset

/-! ## The step -/

/-- R63, R259: a fetch whose two bytes are not both inside memory (the spec's decision D13). -/
def Obligations.FetchOutsideMemoryFaults : Prop :=
  ∀ s : State, s.mode = .running → 0xFFE < s.pc.toNat → step s = .next (faultedWith s .fetchBounds none .nothing)

/-- R250, R62: a step runs the instruction its two bytes decode to and then ticks, unless a fault was raised.
For 0nnn under `P_SYS = FAULT` that instruction is `sys`, which faults (assumption log 2). -/
def Obligations.StepRunsDecoded : Prop :=
  ∀ (s : State) (i : Instr), s.mode = .running → s.pc.toNat ≤ 0xFFE → decode (wordAtPc s) = .ok i →
    ∃ t, exec i s = .next t ∧ step s = .next (if t.mode.isFaulted then t else tick t)

/-- R253: DecodeError is raised for exactly the words of R97, and records the fetch address and the word. -/
def Obligations.DecodeErrorExactly : Prop :=
  ∀ s : State, s.mode = .running → s.pc.toNat ≤ 0xFFE →
    (IllegalWord s.cfg.sysPolicy (wordAtPc s) →
      step s = .next (faultedWith s .decodeError (some (wordAtPc s)) .nothing))
    ∧ (¬ IllegalWord s.cfg.sysPolicy (wordAtPc s) →
        ∃ t, step s = .next t ∧ ∀ info, t.mode = .faulted info → info.cause ≠ .decodeError)

/-- R35, R34: a step that completes lowers each timer by one with floor 0, unless the instruction writes that timer. -/
def Obligations.TimersCountDown : Prop :=
  ∀ s t : State, s.mode = .running → step s = .next t → NotFaulted t →
    ((∀ x, decode (wordAtPc s) ≠ .ok (.ldDtVx x)) → t.dt.toNat = s.dt.toNat - 1)
    ∧ ((∀ x, decode (wordAtPc s) ≠ .ok (.ldStVx x)) → t.st.toNat = s.st.toNat - 1)

/-- R241: a step while a key is awaited does nothing, or the tick alone (the spec's decision D6). -/
def Obligations.WaitingStep : Prop :=
  ∀ (s : State) (x : Reg), s.mode = .awaitKey x →
    (s.cfg.awaitTimers = .frozen → step s = .next s)
    ∧ (s.cfg.awaitTimers = .decrement → ∃ t, step s = .next t ∧ t.dt.toNat = s.dt.toNat - 1
        ∧ t.st.toNat = s.st.toNat - 1 ∧ KeepsAllBut [.dt, .st] s t)

/-- R250, R288: a step in a terminal mode has no effect. -/
def Obligations.EndedRunStays : Prop :=
  ∀ s : State, (s.mode = .stopped ∨ ∃ info, s.mode = .faulted info) → step s = .next s

/-- R254, R255, R261: a step that faults leaves the state before it but for the record, which names the fetch address, the
word fetched (absent where none was) and never the load's cause (the spec's decisions D1, D21). -/
def Obligations.FaultsArePrecise : Prop :=
  ∀ (s t : State) (info : FaultInfo), s.mode = .running → step s = .next t → t.mode = .faulted info →
    t = { s with mode := .faulted info } ∧ info.a = s.pc
    ∧ info.op = (if 0xFFE < s.pc.toNat then none else some (wordAtPc s))
    ∧ (info.cause = .fetchBounds ↔ 0xFFE < s.pc.toNat) ∧ info.cause ≠ .loadError

/-- R39: the transitions of `Mode`, over every transaction but a new load (the spec's decisions D1, D5, D28). -/
def Obligations.ModeTransitions : Prop :=
  ∀ (s t : State) (tr : Transaction), (∀ b, tr ≠ .load b) → transact s tr = .next t → t.mode ≠ s.mode →
    (s.mode = .running ∧ tr = .step ∧ ∃ x, t.mode = .awaitKey x ∧ decode (wordAtPc s) = .ok (.ldVxK x))
    ∨ (s.mode = .running ∧ tr = .step ∧ ∃ info, t.mode = .faulted info)
    ∨ ((∃ x, s.mode = .awaitKey x) ∧ (∃ k, tr = .keyEvent k) ∧ t.mode = .running)
    ∨ ((s.mode = .running ∨ ∃ x, s.mode = .awaitKey x) ∧ tr = .stop ∧ t.mode = .stopped)

/-! ## Whole-machine rules -/

/-- The table of R23, its column "writes": every instruction leaves every other register. -/
def Obligations.RegisterWriteTable : Prop :=
  ∀ (i : Instr) (s t : State), exec i s = .next t → ∀ r, writesReg i r = false → t.getV r = s.getV r

/-- R24, R28, R34, R37, R38, R40, R20: which instructions may write each other piece of state. That Fx0A alone enters
AwaitKey is R39 and R240 (the spec's decision D5). The clause about `draws` is the model's, whose counter it is (assumption
log 4). -/
def Obligations.StateWriteTable : Prop :=
  ∀ (i : Instr) (s t : State), exec i s = .next t →
    ((∀ nnn, i ≠ .ldI nnn) → (∀ x, i ≠ .addIVx x) → (∀ x, i ≠ .ldFVx x) → t.i = s.i)
    ∧ ((∀ nnn, i ≠ .call nnn) → i ≠ .ret → t.sp = s.sp)
    ∧ ((∀ nnn, i ≠ .call nnn) → t.stack = s.stack)
    ∧ ((∀ x, i ≠ .ldDtVx x) → t.dt = s.dt)
    ∧ ((∀ x, i ≠ .ldStVx x) → t.st = s.st)
    ∧ (i ≠ .cls → (∀ x y n, i ≠ .drw x y n) → t.disp = s.disp ∧ t.dirty = s.dirty)
    ∧ ((∀ x kk, i ≠ .rnd x kk) → t.draws = s.draws)
    ∧ (∀ x, t.mode = .awaitKey x → i = .ldVxK x ∨ s.mode = .awaitKey x)
    ∧ t.key = s.key ∧ t.cfg = s.cfg

/-- R69, R60: memory outside the bytes that Fx33 and Fx55 store from `I` up reads as before. The premise `MemoryCanonical`,
here and below, is the form of the model's own memory list (assumption log 8). -/
def Obligations.MemoryWriteTable : Prop :=
  ∀ (i : Instr) (s t : State), MemoryCanonical s → exec i s = .next t → KeepsBytesBut s.i.toNat (storeCount i) s t

/-- Every transaction of R275 keeps the canonical form of memory. The form is the model's own representation (assumption
log 8); of the spec's it holds that the addresses are those of R60. -/
def Obligations.MemoryCanonicalKept : Prop :=
  ∀ (s t : State) (tr : Transaction), MemoryCanonical s → transact s tr = .next t → MemoryCanonical t

/-- R43, R66, R276: where writes to the reserved region fault, nothing ever changes the font or the zeros after it (the
spec's decisions D14, D19; assumption log 8). -/
def Obligations.ReservedRegionKept : Prop :=
  ∀ (s t : State) (tr : Transaction), MemoryCanonical s → ReservedIntact s → transact s tr = .next t → ReservedIntact t

/-- R27: no step takes `PC` near the 16-bit wrap. -/
def Obligations.PcReachKept : Prop :=
  ∀ s t : State, PcInReach s → step s = .next t → PcInReach t

/-- R46, R34: a program observes neither `Dirty` nor `ST`. Whatever they are, a step gives the same state but for them. -/
def Obligations.DirtyAndSoundUnobserved : Prop :=
  ∀ (s t : State) (d : Bool) (b : Byte), step s = .next t →
    ∃ d' b', step ({ s with dirty := d, st := b }) = .next ({ t with dirty := d', st := b' })

/-- R251, in the model's terms: but for RND, what an instruction does does not depend on the draw counter, which is the
model's own field (assumption log 4). -/
def Obligations.OnlyRndDraws : Prop :=
  ∀ (i : Instr) (s t : State) (k : Nat), (∀ x kk, i ≠ .rnd x kk) → exec i s = .next t →
    exec i ({ s with draws := k }) = .next ({ t with draws := k })

/-! ## Control transfer and skips (40_control_flow.md) -/

/-- R123: the jump, and its word (R94; general knowledge of the spec's: assumption log 10). -/
def Obligations.JumpTarget : Prop :=
  ∀ (nnn : Addr) (s : State), decode (encodeNnn 0x1 nnn) = .ok (.jp nnn)
    ∧ ∃ t, exec (.jp nnn) s = .next t ∧ t.pc.toNat = nnn.toNat ∧ KeepsAllBut [.pc] s t

/-- R130: the sum is exact, neither masked nor wrapped (the spec's decision D24). -/
def Obligations.IndexedJumpTarget : Prop :=
  ∀ (nnn : Addr) (s : State),
    ∃ t, exec (.jpV0 nnn) s = .next t ∧ t.pc.toNat = nnn.toNat + (s.getV 0).toNat ∧ KeepsAllBut [.pc] s t

/-- R124: the call, its word (assumption log 10), and the fault of R257 (the spec's decision D11). -/
def Obligations.CallPushesReturnAddress : Prop :=
  ∀ (nnn : Addr) (s : State), decode (encodeNnn 0x2 nnn) = .ok (.call nnn)
    ∧ (∀ hsp : s.sp.val < 16, ∃ t, exec (.call nnn) s = .next t ∧ t.pc.toNat = nnn.toNat ∧ t.sp.val = s.sp.val + 1
      ∧ t.stack[s.sp.val] = s.pc + 2 ∧ (∀ j : Fin 16, j.val ≠ s.sp.val → t.stack[j.val] = s.stack[j.val])
      ∧ KeepsAllBut [.pc, .sp, .stack] s t)
    ∧ (s.sp.val = 16 →
        exec (.call nnn) s = .next (faultedWith s .stackOverflow (some (encode (.call nnn))) .nothing))

/-- R122: the return, its one word (assumption log 10), and the fault of R258 (the spec's decision D11). -/
def Obligations.ReturnPops : Prop :=
  ∀ s : State, (∀ op : Opcode, decode op = .ok .ret ↔ op = 0x00EE)
    ∧ (∀ j : Fin 16, s.sp.val = j.val + 1 → ∃ t, exec .ret s = .next t ∧ t.sp.val = j.val ∧ t.pc = s.stack[j.val]
      ∧ KeepsAllBut [.pc, .sp] s t)
    ∧ (s.sp.val = 0 → exec .ret s = .next (faultedWith s .stackUnderflow (some 0x00EE) .nothing))

/-- The source's call and return pairing (95_test_vectors.md S2): a return after a call, with the stack as the call left
it, comes back to the call's address plus 2 and the call's `SP`. -/
def Obligations.ReturnAfterCall : Prop :=
  ∀ (nnn : Addr) (s t u : State), s.sp.val < 16 → exec (.call nnn) s = .next t → u.sp = t.sp → u.stack = t.stack →
    ∃ w, exec .ret u = .next w ∧ w.pc = s.pc + 2 ∧ w.sp = s.sp

/-- R125-R128, R120: the register skips. -/
def Obligations.RegisterSkips : Prop :=
  ∀ (x y : Reg) (kk : Byte) (s : State),
    (∃ t, exec (.seImm x kk) s = .next t ∧ KeepsAllBut [.pc] s t
      ∧ t.pc = if s.getV x = kk then s.pc + 4 else s.pc + 2)
    ∧ (∃ t, exec (.sneImm x kk) s = .next t ∧ KeepsAllBut [.pc] s t
      ∧ t.pc = if s.getV x = kk then s.pc + 2 else s.pc + 4)
    ∧ (∃ t, exec (.seReg x y) s = .next t ∧ KeepsAllBut [.pc] s t
      ∧ t.pc = if s.getV x = s.getV y then s.pc + 4 else s.pc + 2)
    ∧ (∃ t, exec (.sneReg x y) s = .next t ∧ KeepsAllBut [.pc] s t
      ∧ t.pc = if s.getV x = s.getV y then s.pc + 2 else s.pc + 4)

/-- R129: the system-call space under each `P_SYS` (the spec's decision D3). The DecodeError is raised by the meaning
(assumption log 2). -/
def Obligations.SystemCallSpace : Prop :=
  ∀ (nnn : Addr) (s : State),
    (s.cfg.sysPolicy = .nop → ∃ t, exec (.sys nnn) s = .next t ∧ t.pc = s.pc + 2 ∧ KeepsAllBut [.pc] s t)
    ∧ (s.cfg.sysPolicy = .fault →
        exec (.sys nnn) s = .next (faultedWith s .decodeError (some (encode (.sys nnn))) .nothing))

/-! ## Loads and arithmetic (41_alu.md) -/

/-- R152: the word and the register; no flag is written. -/
def Obligations.LoadImmediate : Prop :=
  ∀ (x : Reg) (kk : Byte) (s : State), decode (encodeXkk 0x6 x kk) = .ok (.ldImm x kk)
    ∧ ∃ t, exec (.ldImm x kk) s = .next t ∧ t.getV x = kk ∧ t.pc = s.pc + 2 ∧ KeepsRegsBut [x] s t
      ∧ KeepsAllBut [.pc, .v] s t

/-- R153: the wrapped sum, no flag written, and the word (general knowledge of the spec's: assumption log 10). -/
def Obligations.AddImmediate : Prop :=
  ∀ (x : Reg) (kk : Byte) (s : State), decode (encodeXkk 0x7 x kk) = .ok (.addImm x kk)
    ∧ ∃ t, exec (.addImm x kk) s = .next t ∧ (t.getV x).toNat = ((s.getV x).toNat + kk.toNat) % 256
      ∧ t.pc = s.pc + 2 ∧ KeepsRegsBut [x] s t ∧ KeepsAllBut [.pc, .v] s t

/-- R154-R157: assign and the bitwise operations. That `VF` is kept is the spec's decision D18. -/
def Obligations.AssignAndBitwise : Prop :=
  ∀ (x y : Reg) (s : State),
    (∃ t, exec (.ldReg x y) s = .next t ∧ t.getV x = s.getV y ∧ t.pc = s.pc + 2 ∧ KeepsRegsBut [x] s t
      ∧ KeepsAllBut [.pc, .v] s t)
    ∧ (∃ t, exec (.orReg x y) s = .next t ∧ t.getV x = s.getV x ||| s.getV y ∧ t.pc = s.pc + 2 ∧ KeepsRegsBut [x] s t
      ∧ KeepsAllBut [.pc, .v] s t)
    ∧ (∃ t, exec (.andReg x y) s = .next t ∧ t.getV x = s.getV x &&& s.getV y ∧ t.pc = s.pc + 2 ∧ KeepsRegsBut [x] s t
      ∧ KeepsAllBut [.pc, .v] s t)
    ∧ (∃ t, exec (.xorReg x y) s = .next t ∧ t.getV x = s.getV x ^^^ s.getV y ∧ t.pc = s.pc + 2 ∧ KeepsRegsBut [x] s t
      ∧ KeepsAllBut [.pc, .v] s t)

/-- R158: the word, the sum and the carry, the flag last. -/
def Obligations.AddWithCarry : Prop :=
  ∀ (x y : Reg) (s : State), decode (encodeXyn 0x8 x y 0x4) = .ok (.addReg x y)
    ∧ ∃ t, exec (.addReg x y) s = .next t ∧ t.pc = s.pc + 2
    ∧ (x ≠ 15 → (t.getV x).toNat = ((s.getV x).toNat + (s.getV y).toNat) % 256)
    ∧ t.getV 15 = (if (s.getV x).toNat + (s.getV y).toNat > 255 then 1 else 0)
    ∧ KeepsRegsBut [x, 15] s t ∧ KeepsAllBut [.pc, .v] s t

/-- R159, R161: the differences and NOT borrow, the flag last, and the words (assumption log 10). -/
def Obligations.SubtractWithBorrow : Prop :=
  ∀ (x y : Reg) (s : State),
    decode (encodeXyn 0x8 x y 0x5) = .ok (.sub x y) ∧ decode (encodeXyn 0x8 x y 0x7) = .ok (.subn x y)
    ∧ (∃ t, exec (.sub x y) s = .next t ∧ t.pc = s.pc + 2
      ∧ (x ≠ 15 → (t.getV x).toNat = (256 + (s.getV x).toNat - (s.getV y).toNat) % 256)
      ∧ t.getV 15 = (if (s.getV x).toNat ≥ (s.getV y).toNat then 1 else 0)
      ∧ KeepsRegsBut [x, 15] s t ∧ KeepsAllBut [.pc, .v] s t)
    ∧ (∃ t, exec (.subn x y) s = .next t ∧ t.pc = s.pc + 2
      ∧ (x ≠ 15 → (t.getV x).toNat = (256 + (s.getV y).toNat - (s.getV x).toNat) % 256)
      ∧ t.getV 15 = (if (s.getV y).toNat ≥ (s.getV x).toNat then 1 else 0)
      ∧ KeepsRegsBut [x, 15] s t ∧ KeepsAllBut [.pc, .v] s t)

/-- R160, R151: shift right, with the outcome for x = F under each `P_VF_ORDER` (the spec's decision D10). -/
def Obligations.ShiftRight : Prop :=
  ∀ (x y : Reg) (s : State), ∃ t, exec (.shr x y) s = .next t ∧ t.pc = s.pc + 2
    ∧ (x ≠ 15 → (t.getV x).toNat = (s.getV x).toNat / 2 ∧ (t.getV 15).toNat = (s.getV x).toNat % 2)
    ∧ (x = 15 → (t.getV 15).toNat = match s.cfg.vfOrder with
        | .textOrder => 0
        | .resultLast => (s.getV x).toNat / 2
        | .flagLast => (s.getV x).toNat % 2)
    ∧ KeepsRegsBut [x, 15] s t ∧ KeepsAllBut [.pc, .v] s t

/-- R162, R151: shift left, with the outcome for x = F under each `P_VF_ORDER` (the spec's decision D10). -/
def Obligations.ShiftLeft : Prop :=
  ∀ (x y : Reg) (s : State), ∃ t, exec (.shl x y) s = .next t ∧ t.pc = s.pc + 2
    ∧ (x ≠ 15 → (t.getV x).toNat = (s.getV x).toNat * 2 % 256 ∧ (t.getV 15).toNat = (s.getV x).toNat / 128)
    ∧ (x = 15 → (t.getV 15).toNat = match s.cfg.vfOrder with
        | .textOrder => 2 * ((s.getV x).toNat / 128)
        | .resultLast => (s.getV x).toNat * 2 % 256
        | .flagLast => (s.getV x).toNat / 128)
    ∧ KeepsRegsBut [x, 15] s t ∧ KeepsAllBut [.pc, .v] s t

/-- R163, R49: one draw is taken, any byte, and masked. That draws are numbered by `draws` is the model's choice (assumption
log 4); the statement holds for every sequence of draws. -/
def Obligations.RandomMasked : Prop :=
  ∀ (x : Reg) (kk : Byte) (s : State), ∃ t, exec (.rnd x kk) s = .next t ∧ t.pc = s.pc + 2
    ∧ t.getV x = Config.randomByte s.draws &&& kk ∧ t.getV x &&& ~~~kk = 0 ∧ t.draws = s.draws + 1
    ∧ KeepsRegsBut [x] s t ∧ KeepsAllBut [.pc, .v, .draws] s t

/-! ## Index and memory (42_index_memory.md) -/

/-- R180: the word, and the index written whole. -/
def Obligations.SetIndex : Prop :=
  ∀ (nnn : Addr) (s : State), decode (encodeNnn 0xA nnn) = .ok (.ldI nnn)
    ∧ ∃ t, exec (.ldI nnn) s = .next t ∧ t.i.toNat = nnn.toNat ∧ t.pc = s.pc + 2 ∧ KeepsAllBut [.pc, .i] s t

/-- R182: five times the register, not masked, and the word (general knowledge of the spec's: assumption log 10). -/
def Obligations.FontAddress : Prop :=
  ∀ (x : Reg) (s : State), decode (encodeXkk 0xF x 0x29) = .ok (.ldFVx x)
    ∧ ∃ t, exec (.ldFVx x) s = .next t ∧ t.i.toNat = (s.getV x).toNat * 5 ∧ t.pc = s.pc + 2
      ∧ KeepsAllBut [.pc, .i] s t

/-- R181, R262: the exact sum, or the fault that records it (the spec's decision D12). -/
def Obligations.AddToIndex : Prop :=
  ∀ (x : Reg) (s : State),
    (s.i.toNat + (s.getV x).toNat ≤ 0xFFFF → ∃ t, exec (.addIVx x) s = .next t
      ∧ t.i.toNat = s.i.toNat + (s.getV x).toNat ∧ t.pc = s.pc + 2 ∧ KeepsAllBut [.pc, .i] s t)
    ∧ (0xFFFF < s.i.toNat + (s.getV x).toNat →
        exec (.addIVx x) s = .next (faultedWith s .indexOverflow (some (encode (.addIVx x)))
          (.sum (s.i.toNat + (s.getV x).toNat))))

/-- R184 where the three addresses may be written: the digits, and no other byte. -/
def Obligations.StoreDecimalDigits : Prop :=
  ∀ (x : Reg) (s : State), MemoryCanonical s → (s.cfg.reservedWrite = .allow ∨ 0x1FF < s.i.toNat) →
    s.i.toNat + 2 ≤ 0xFFF →
    ∃ t, exec (.ldBVx x) s = .next t ∧ t.pc = s.pc + 2
      ∧ (t.byteAt s.i.toNat).toNat = (s.getV x).toNat / 100
      ∧ (t.byteAt (s.i.toNat + 1)).toNat = (s.getV x).toNat / 10 % 10
      ∧ (t.byteAt (s.i.toNat + 2)).toNat = (s.getV x).toNat % 10
      ∧ KeepsBytesBut s.i.toNat 3 s t ∧ KeepsAllBut [.pc, .mem] s t

/-- R185 where the addresses may be written: V0..Vx in order, and no other byte. -/
def Obligations.StoreRegisters : Prop :=
  ∀ (x : Reg) (s : State), MemoryCanonical s → (s.cfg.reservedWrite = .allow ∨ 0x1FF < s.i.toNat) →
    s.i.toNat + x.val ≤ 0xFFF →
    ∃ t, exec (.ldMemVx x) s = .next t ∧ t.pc = s.pc + 2
      ∧ (∀ r : Reg, r.val ≤ x.val → t.byteAt (s.i.toNat + r.val) = s.getV r)
      ∧ KeepsBytesBut s.i.toNat (x.val + 1) s t ∧ KeepsAllBut [.pc, .mem] s t

/-- R65, R66, R256, R260, R266 for Fx33 and Fx55: the first address that fails names the fault, and nothing is stored
(the spec's decisions D13, D14). -/
def Obligations.StoreFaults : Prop :=
  ∀ (x : Reg) (s : State),
    (s.cfg.reservedWrite = .fault → s.i.toNat ≤ 0x1FF →
      exec (.ldBVx x) s
          = .next (faultedWith s .reservedWrite (some (encode (.ldBVx x))) (.address s.i.toNat))
      ∧ exec (.ldMemVx x) s
          = .next (faultedWith s .reservedWrite (some (encode (.ldMemVx x))) (.address s.i.toNat)))
    ∧ (0xFFF < s.i.toNat + 2 →
      exec (.ldBVx x) s
          = .next (faultedWith s .memBounds (some (encode (.ldBVx x))) (.address (max s.i.toNat 0x1000))))
    ∧ (0xFFF < s.i.toNat + x.val →
      exec (.ldMemVx x) s
          = .next (faultedWith s .memBounds (some (encode (.ldMemVx x))) (.address (max s.i.toNat 0x1000))))

/-- R186, R64: V0..Vx from memory, or the bounds fault at the first address outside it. -/
def Obligations.LoadRegisters : Prop :=
  ∀ (x : Reg) (s : State),
    (s.i.toNat + x.val ≤ 0xFFF → ∃ t, exec (.ldVxMem x) s = .next t ∧ t.pc = s.pc + 2
      ∧ (∀ r : Reg, r.val ≤ x.val → t.getV r = s.byteAt (s.i.toNat + r.val))
      ∧ (∀ r : Reg, x.val < r.val → t.getV r = s.getV r) ∧ KeepsAllBut [.pc, .v] s t)
    ∧ (0xFFF < s.i.toNat + x.val →
        exec (.ldVxMem x) s
          = .next (faultedWith s .memBounds (some (encode (.ldVxMem x))) (.address (max s.i.toNat 0x1000))))

/-- R187: a dump and a load of the same range, with the memory the dump left and any registers in between, give back the
registers dumped. It rests on Fx55 keeping `I` (the spec's decision D17; assumption log 16). -/
def Obligations.DumpThenLoad : Prop :=
  ∀ (x : Reg) (s t u : State), MemoryCanonical s → exec (.ldMemVx x) s = .next t → ¬ t.mode.isFaulted →
    (∀ a, u.byteAt a = t.byteAt a) → u.i = t.i →
    ∃ w, exec (.ldVxMem x) u = .next w ∧ ∀ r : Reg, r.val ≤ x.val → w.getV r = s.getV r

/-- R77 (the spec's decision D23): a word stored by a dump is the word a later fetch reads there. -/
def Obligations.StoredCodeIsFetched : Prop :=
  ∀ (x : Reg) (s t : State) (r : Fin 15) (a : Word), MemoryCanonical s → exec (.ldMemVx x) s = .next t →
    ¬ t.mode.isFaulted → r.val < x.val → a.toNat = s.i.toNat + r.val →
    fetch t a = .ok (s.getV ⟨r.val, by omega⟩ ++ s.getV ⟨r.val + 1, by omega⟩)

/-! ## Display (43_display.md) -/

/-- R200: every pixel 0 and `Dirty` set, and the one word (general knowledge of the spec's: assumption log 10). -/
def Obligations.ClearDisplay : Prop :=
  ∀ s : State, (∀ op : Opcode, decode op = .ok .cls ↔ op = 0x00E0)
    ∧ ∃ t, exec .cls s = .next t ∧ t.pc = s.pc + 2 ∧ (∀ p, p < 2048 → pixel t.disp p = false)
    ∧ t.dirty = true ∧ KeepsAllBut [.pc, .disp, .dirty] s t

/-- R203: two bits of one sprite never land on the same pixel, under either wrap. -/
def Obligations.SpriteBitsApart : Prop :=
  ∀ (w : DrawWrap) (cx cy c1 r1 c2 r2 : Nat), c1 < 8 → c2 < 8 → r1 < 15 → r2 < 15 →
    pixelIndex w (cx + c1) (cy + r1) = pixelIndex w (cx + c2) (cy + r2) → c1 = c2 ∧ r1 = r2

/-- R204, R201, R202, R205: a draw flips exactly the pixels under the sprite's 1 bits, and `VF` says whether one of them
was 1 before. The wrap and the latch are by the spec's parameters of decisions D8, D9. With x or y = F the
origin is the one value `P_DRAW_LATCH` gives; a re-read of Vx, Vy for each pixel is not modelled
(N13, assumption log 12). -/
def Obligations.DrawSprite : Prop :=
  ∀ (x y : Reg) (n : Nibble) (s : State), (n.toNat = 0 ∨ s.i.toNat + n.toNat ≤ 0x1000) →
    ∃ t, exec (.drw x y n) s = .next t ∧ t.pc = s.pc + 2 ∧ t.dirty = true
      ∧ (∀ p, p < 2048 → (SpriteCovers s x y n.toNat p → pixel t.disp p = !pixel s.disp p)
          ∧ (¬ SpriteCovers s x y n.toNat p → pixel t.disp p = pixel s.disp p))
      ∧ ((∃ p, SpriteCovers s x y n.toNat p ∧ pixel s.disp p = true) → t.getV 15 = 1)
      ∧ ((¬ ∃ p, SpriteCovers s x y n.toNat p ∧ pixel s.disp p = true) → t.getV 15 = 0)
      ∧ KeepsRegsBut [15] s t ∧ KeepsAllBut [.pc, .v, .disp, .dirty] s t

/-- R204's fault: the first row address outside memory. -/
def Obligations.DrawOutsideMemoryFaults : Prop :=
  ∀ (x y : Reg) (n : Nibble) (s : State), 1 ≤ n.toNat → 0x1000 < s.i.toNat + n.toNat →
    exec (.drw x y n) s
      = .next (faultedWith s .memBounds (some (encode (.drw x y n))) (.address (max s.i.toNat 0x1000)))

/-- R206: the same sprite drawn twice at the same origin restores the display, and the second draw's `VF` is its own. The
rule's remark that the second draw collides whenever the sprite has a 1 bit holds of R204 only where a pixel under a 1 bit was
0 before the first draw; that is what is stated (assumption log 13). With
x or y = F it speaks of draws whose origin is the same both times, the rule's "same coordinates"; a re-read of Vx, Vy for
each pixel is not modelled (N13, assumption log 12). -/
def Obligations.DrawTwiceRestores : Prop :=
  ∀ (x y : Reg) (n : Nibble) (s t : State), (n.toNat = 0 ∨ s.i.toNat + n.toNat ≤ 0x1000) →
    exec (.drw x y n) s = .next t → originValue t x = originValue s x → originValue t y = originValue s y →
    ∃ u, exec (.drw x y n) t = .next u ∧ (∀ p, p < 2048 → pixel u.disp p = pixel s.disp p)
      ∧ ((∃ p, SpriteCovers s x y n.toNat p ∧ pixel s.disp p = false) → u.getV 15 = 1)
      ∧ ((¬ ∃ p, SpriteCovers s x y n.toNat p ∧ pixel s.disp p = false) → u.getV 15 = 0)

/-! ## Timers and keypad (44_timers_keypad.md) -/

/-- R230, R231, R232: the moves themselves; the tick of the same step is `StepRunsDecoded`'s. -/
def Obligations.TimerMoves : Prop :=
  ∀ (x : Reg) (s : State),
    (∃ t, exec (.ldVxDt x) s = .next t ∧ t.getV x = s.dt ∧ t.pc = s.pc + 2 ∧ KeepsRegsBut [x] s t
      ∧ KeepsAllBut [.pc, .v] s t)
    ∧ (∃ t, exec (.ldDtVx x) s = .next t ∧ t.dt = s.getV x ∧ t.pc = s.pc + 2 ∧ KeepsAllBut [.pc, .dt] s t)
    ∧ (∃ t, exec (.ldStVx x) s = .next t ∧ t.st = s.getV x ∧ t.pc = s.pc + 2 ∧ KeepsAllBut [.pc, .st] s t)

/-- R231, R232: after the whole step the timer is the register less one, with floor 0. -/
def Obligations.TimerWriteThenTick : Prop :=
  ∀ (x : Reg) (s : State), s.mode = .running → s.pc.toNat ≤ 0xFFE →
    (decode (wordAtPc s) = .ok (.ldDtVx x) → ∃ t, step s = .next t ∧ t.dt.toNat = (s.getV x).toNat - 1)
    ∧ (decode (wordAtPc s) = .ok (.ldStVx x) → ∃ t, step s = .next t ∧ t.st.toNat = (s.getV x).toNat - 1)

/-- R234, R235, R120, R263: the key skips, and the fault for a key above 0xF (the spec's decision D16). -/
def Obligations.KeySkips : Prop :=
  ∀ (x : Reg) (s : State),
    (∀ h : (s.getV x).toNat < 16,
      (∃ t, exec (.skp x) s = .next t ∧ KeepsAllBut [.pc] s t
        ∧ t.pc = if s.getKey ⟨(s.getV x).toNat, h⟩ = true then s.pc + 4 else s.pc + 2)
      ∧ (∃ t, exec (.sknp x) s = .next t ∧ KeepsAllBut [.pc] s t
        ∧ t.pc = if s.getKey ⟨(s.getV x).toNat, h⟩ = true then s.pc + 2 else s.pc + 4))
    ∧ (15 < (s.getV x).toNat →
      exec (.skp x) s = .next (faultedWith s .keyIndex (some (encode (.skp x))) (.key (s.getV x)))
      ∧ exec (.sknp x) s = .next (faultedWith s .keyIndex (some (encode (.sknp x))) (.key (s.getV x))))

/-- R240, R264: the wait, or Unimplemented, by `P_FX0A` (the spec's decision D5). -/
def Obligations.WaitForKey : Prop :=
  ∀ (x : Reg) (s : State),
    (s.cfg.waitPolicy = .await → ∃ t, exec (.ldVxK x) s = .next t ∧ t.mode = .awaitKey x ∧ t.pc = s.pc + 2
      ∧ KeepsAllBut [.pc, .mode] s t)
    ∧ (s.cfg.waitPolicy = .fault →
        exec (.ldVxK x) s = .next (faultedWith s .unimplemented (some (encode (.ldVxK x))) .nothing))

/-! ## Host transactions (60_exceptions.md) -/

/-- R242, R281: a key event completes a wait, and does nothing in any other mode (the spec's decision D7). -/
def Obligations.KeyEventCompletesWait : Prop :=
  ∀ (s : State) (k : Key),
    (∀ x, s.mode = .awaitKey x → ((keyEvent s k).getV x).toNat = k.val ∧ (keyEvent s k).mode = .running
      ∧ KeepsRegsBut [x] s (keyEvent s k) ∧ KeepsAllBut [.v, .mode] s (keyEvent s k))
    ∧ ((∀ x, s.mode ≠ .awaitKey x) → keyEvent s k = s)

/-- R280, R279, R278, R283, R284: the other inputs and observations (R283, R284: the spec's decisions D28, D29). -/
def Obligations.HostTransactions : Prop :=
  ∀ (s : State) (k : Key) (b : Bool),
    ((setKey s k b).getKey k = b ∧ (∀ j, j ≠ k → (setKey s k b).getKey j = s.getKey j)
      ∧ KeepsAllBut [.key] s (setKey s k b))
    ∧ ((takeDirty s).1 = s.dirty ∧ (takeDirty s).2.dirty = false ∧ KeepsAllBut [.dirty] s (takeDirty s).2)
    ∧ ((readDisplay s).length = 2048 ∧ ∀ x y, x < 64 → y < 32 →
        (readDisplay s)[x + 64 * y]? = some (pixel s.disp (x + 64 * y)))
    ∧ ((s.mode = .running ∨ ∃ x, s.mode = .awaitKey x) → stop s = { s with mode := .stopped })
    ∧ ((s.mode = .stopped ∨ ∃ info, s.mode = .faulted info) → stop s = s)
    ∧ readStatus s = (s.mode, s.dt, s.st)
end

