-- ==== Sys2Proof/Laws/Decode.lean ====
section
/-! SUPPORT. Words as numbers: the value of each encoding form and of each field, so that the decoder and the encoder are
compared by arithmetic. -/

namespace Sys2Proof

/-! ### The value of each form -/

theorem append_toNat {m n : Nat} (a : BitVec m) (b : BitVec n) : (a ++ b).toNat = a.toNat * 2 ^ n + b.toNat := by
  rw [BitVec.toNat_append, ← Nat.shiftLeft_add_eq_or_of_lt b.isLt, Nat.shiftLeft_eq]

theorem encodeNnn_toNat (o : Nibble) (nnn : Addr) : (encodeNnn o nnn).toNat = o.toNat * 4096 + nnn.toNat :=
  append_toNat o nnn

theorem encodeXkk_toNat (o : Nibble) (x : Reg) (kk : Byte) :
    (encodeXkk o x kk).toNat = o.toNat * 4096 + x.val * 256 + kk.toNat := by
  refine (append_toNat (o ++ BitVec.ofFin (w := 4) x) kk).trans ?_
  rw [append_toNat]
  simp only [BitVec.toNat_ofFin]
  omega

theorem encodeXyn_toNat (o : Nibble) (x y : Reg) (n : Nibble) :
    (encodeXyn o x y n).toNat = o.toNat * 4096 + x.val * 256 + y.val * 16 + n.toNat := by
  refine (append_toNat (o ++ BitVec.ofFin (w := 4) x ++ BitVec.ofFin (w := 4) y) n).trans ?_
  rw [append_toNat, append_toNat]
  simp only [BitVec.toNat_ofFin]
  omega

theorem wordOfBytes_toNat (hi lo : Byte) : (wordOfBytes hi lo).toNat = hi.toNat * 256 + lo.toNat :=
  append_toNat hi lo

/-! ### The value of each field -/

theorem fieldO_toNat (op : Opcode) : (fieldO op).toNat = op.toNat / 4096 := by
  have := op.isLt
  simp only [fieldO, BitVec.extractLsb'_toNat, Nat.shiftRight_eq_div_pow]
  omega

theorem fieldX_val (op : Opcode) : (fieldX op).val = op.toNat / 256 % 16 := by
  change (op.extractLsb' 8 4).toNat = _
  simp only [BitVec.extractLsb'_toNat, Nat.shiftRight_eq_div_pow]

theorem fieldY_val (op : Opcode) : (fieldY op).val = op.toNat / 16 % 16 := by
  change (op.extractLsb' 4 4).toNat = _
  simp only [BitVec.extractLsb'_toNat, Nat.shiftRight_eq_div_pow]

theorem fieldN_toNat (op : Opcode) : (fieldN op).toNat = op.toNat % 16 := by
  simp only [fieldN, BitVec.extractLsb'_toNat, Nat.shiftRight_eq_div_pow]
  omega

theorem fieldKk_toNat (op : Opcode) : (fieldKk op).toNat = op.toNat % 256 := by
  simp only [fieldKk, BitVec.extractLsb'_toNat, Nat.shiftRight_eq_div_pow]
  omega

theorem fieldNnn_toNat (op : Opcode) : (fieldNnn op).toNat = op.toNat % 4096 := by
  simp only [fieldNnn, BitVec.extractLsb'_toNat, Nat.shiftRight_eq_div_pow]
  omega

theorem highByte_toNat (op : Opcode) : (highByte op).toNat = op.toNat / 256 := by
  have := op.isLt
  simp only [highByte, BitVec.extractLsb'_toNat, Nat.shiftRight_eq_div_pow]
  omega

theorem lowByte_toNat (op : Opcode) : (lowByte op).toNat = op.toNat % 256 := by
  simp only [lowByte, BitVec.extractLsb'_toNat, Nat.shiftRight_eq_div_pow]
  omega

/-! ### Fields of an encoded word -/

@[simp] theorem fieldO_encodeNnn (o : Nibble) (nnn : Addr) : fieldO (encodeNnn o nnn) = o := by
  have := o.isLt; have := nnn.isLt
  apply BitVec.eq_of_toNat_eq; rw [fieldO_toNat, encodeNnn_toNat]; omega

@[simp] theorem fieldNnn_encodeNnn (o : Nibble) (nnn : Addr) : fieldNnn (encodeNnn o nnn) = nnn := by
  have := o.isLt; have := nnn.isLt
  apply BitVec.eq_of_toNat_eq; rw [fieldNnn_toNat, encodeNnn_toNat]; omega

@[simp] theorem fieldO_encodeXkk (o : Nibble) (x : Reg) (kk : Byte) : fieldO (encodeXkk o x kk) = o := by
  have := o.isLt; have := x.isLt; have := kk.isLt
  apply BitVec.eq_of_toNat_eq; rw [fieldO_toNat, encodeXkk_toNat]; omega

@[simp] theorem fieldX_encodeXkk (o : Nibble) (x : Reg) (kk : Byte) : fieldX (encodeXkk o x kk) = x := by
  have := o.isLt; have := x.isLt; have := kk.isLt
  apply Fin.ext; rw [fieldX_val, encodeXkk_toNat]; omega

@[simp] theorem fieldKk_encodeXkk (o : Nibble) (x : Reg) (kk : Byte) : fieldKk (encodeXkk o x kk) = kk := by
  have := o.isLt; have := x.isLt; have := kk.isLt
  apply BitVec.eq_of_toNat_eq; rw [fieldKk_toNat, encodeXkk_toNat]; omega

@[simp] theorem fieldO_encodeXyn (o : Nibble) (x y : Reg) (n : Nibble) : fieldO (encodeXyn o x y n) = o := by
  have := o.isLt; have := x.isLt; have := y.isLt; have := n.isLt
  apply BitVec.eq_of_toNat_eq; rw [fieldO_toNat, encodeXyn_toNat]; omega

@[simp] theorem fieldX_encodeXyn (o : Nibble) (x y : Reg) (n : Nibble) : fieldX (encodeXyn o x y n) = x := by
  have := o.isLt; have := x.isLt; have := y.isLt; have := n.isLt
  apply Fin.ext; rw [fieldX_val, encodeXyn_toNat]; omega

@[simp] theorem fieldY_encodeXyn (o : Nibble) (x y : Reg) (n : Nibble) : fieldY (encodeXyn o x y n) = y := by
  have := o.isLt; have := x.isLt; have := y.isLt; have := n.isLt
  apply Fin.ext; rw [fieldY_val, encodeXyn_toNat]; omega

@[simp] theorem fieldN_encodeXyn (o : Nibble) (x y : Reg) (n : Nibble) : fieldN (encodeXyn o x y n) = n := by
  have := o.isLt; have := x.isLt; have := y.isLt; have := n.isLt
  apply BitVec.eq_of_toNat_eq; rw [fieldN_toNat, encodeXyn_toNat]; omega

/-! ### A word is its fields -/

theorem encodeNnn_fields (op : Opcode) : encodeNnn (fieldO op) (fieldNnn op) = op := by
  have := op.isLt
  apply BitVec.eq_of_toNat_eq; rw [encodeNnn_toNat, fieldO_toNat, fieldNnn_toNat]; omega

theorem encodeXkk_fields (op : Opcode) : encodeXkk (fieldO op) (fieldX op) (fieldKk op) = op := by
  have := op.isLt
  apply BitVec.eq_of_toNat_eq; rw [encodeXkk_toNat, fieldO_toNat, fieldX_val, fieldKk_toNat]; omega

theorem encodeXyn_fields (op : Opcode) : encodeXyn (fieldO op) (fieldX op) (fieldY op) (fieldN op) = op := by
  have := op.isLt
  apply BitVec.eq_of_toNat_eq; rw [encodeXyn_toNat, fieldO_toNat, fieldX_val, fieldY_val, fieldN_toNat]; omega

/-! ### The decoder, one equation per top nibble (30_encoding.md R94, R95) -/

theorem decode_group0 {op : Opcode} (h : (fieldO op).toNat = 0) :
    decode op = if op = 0x00E0#16 then .ok .cls
      else if op = 0x00EE#16 then .ok .ret else .ok (.sys (fieldNnn op)) := by
  simp only [decode, h]

theorem decode_group1 {op : Opcode} (h : (fieldO op).toNat = 1) :
    decode op = .ok (.jp (fieldNnn op)) := by
  simp only [decode, h]

theorem decode_group2 {op : Opcode} (h : (fieldO op).toNat = 2) :
    decode op = .ok (.call (fieldNnn op)) := by
  simp only [decode, h]

theorem decode_group3 {op : Opcode} (h : (fieldO op).toNat = 3) :
    decode op = .ok (.seImm (fieldX op) (fieldKk op)) := by
  simp only [decode, h]

theorem decode_group4 {op : Opcode} (h : (fieldO op).toNat = 4) :
    decode op = .ok (.sneImm (fieldX op) (fieldKk op)) := by
  simp only [decode, h]

theorem decode_group5 {op : Opcode} (h : (fieldO op).toNat = 5) :
    decode op = if fieldN op = 0#4 then .ok (.seReg (fieldX op) (fieldY op)) else .error (.unrecognized op) := by
  simp only [decode, h]

theorem decode_group6 {op : Opcode} (h : (fieldO op).toNat = 6) :
    decode op = .ok (.ldImm (fieldX op) (fieldKk op)) := by
  simp only [decode, h]

theorem decode_group7 {op : Opcode} (h : (fieldO op).toNat = 7) :
    decode op = .ok (.addImm (fieldX op) (fieldKk op)) := by
  simp only [decode, h]

theorem decode_group8 {op : Opcode} (h : (fieldO op).toNat = 8) :
    decode op = decodeGroup8 op := by
  simp only [decode, h]

theorem decode_group9 {op : Opcode} (h : (fieldO op).toNat = 9) :
    decode op = if fieldN op = 0#4 then .ok (.sneReg (fieldX op) (fieldY op)) else .error (.unrecognized op) := by
  simp only [decode, h]

theorem decode_groupA {op : Opcode} (h : (fieldO op).toNat = 10) :
    decode op = .ok (.ldI (fieldNnn op)) := by
  simp only [decode, h]

theorem decode_groupB {op : Opcode} (h : (fieldO op).toNat = 11) :
    decode op = .ok (.jpV0 (fieldNnn op)) := by
  simp only [decode, h]

theorem decode_groupC {op : Opcode} (h : (fieldO op).toNat = 12) :
    decode op = .ok (.rnd (fieldX op) (fieldKk op)) := by
  simp only [decode, h]

theorem decode_groupD {op : Opcode} (h : (fieldO op).toNat = 13) :
    decode op = .ok (.drw (fieldX op) (fieldY op) (fieldN op)) := by
  simp only [decode, h]

theorem decode_groupE {op : Opcode} (h : (fieldO op).toNat = 14) :
    decode op = decodeGroupE op := by
  simp only [decode, h]

theorem decode_groupF {op : Opcode} (h : (fieldO op).toNat = 15) :
    decode op = decodeGroupF op := by
  simp only [decode, h]

/-- The top nibble is one of sixteen. -/
theorem fieldO_lt (op : Opcode) : (fieldO op).toNat < 16 := (fieldO op).isLt

/-! ### Words and bytes -/

/-- A word is its high byte and its low byte (20_memory.md R62). -/
@[simp] theorem wordOfBytes_highByte_lowByte (op : Opcode) : wordOfBytes (highByte op) (lowByte op) = op := by
  have := op.isLt
  apply BitVec.eq_of_toNat_eq; rw [wordOfBytes_toNat, highByte_toNat, lowByte_toNat]; omega

/-- The bytes of an instruction's word decode as the word does, and nothing of the rest is consumed (R90). -/
theorem decodeBytes_encodeBytes (i : Instr) (rest : List Byte) :
    decodeBytes (encodeBytes i ++ rest) = (decode (encode i)).map fun j => (j, rest) := by
  simp [encodeBytes, decodeBytes]

end Sys2Proof
end

