-- ==== Sys2Proof/Laws/State.lean ====
section
/-! SUPPORT. One lemma per field per update: what each update of State leaves in each field. -/

namespace Sys2Proof.Machine

@[simp] theorem State.setV_mem (s : State) (x : Reg) (b : Byte) : (s.setV x b).mem = s.mem := rfl
@[simp] theorem State.setV_v (s : State) (x : Reg) (b : Byte) : (s.setV x b).v = s.v.set x.val b := rfl
@[simp] theorem State.setV_i (s : State) (x : Reg) (b : Byte) : (s.setV x b).i = s.i := rfl
@[simp] theorem State.setV_pc (s : State) (x : Reg) (b : Byte) : (s.setV x b).pc = s.pc := rfl
@[simp] theorem State.setV_sp (s : State) (x : Reg) (b : Byte) : (s.setV x b).sp = s.sp := rfl
@[simp] theorem State.setV_stack (s : State) (x : Reg) (b : Byte) : (s.setV x b).stack = s.stack := rfl
@[simp] theorem State.setV_dt (s : State) (x : Reg) (b : Byte) : (s.setV x b).dt = s.dt := rfl
@[simp] theorem State.setV_st (s : State) (x : Reg) (b : Byte) : (s.setV x b).st = s.st := rfl
@[simp] theorem State.setV_disp (s : State) (x : Reg) (b : Byte) : (s.setV x b).disp = s.disp := rfl
@[simp] theorem State.setV_dirty (s : State) (x : Reg) (b : Byte) : (s.setV x b).dirty = s.dirty := rfl
@[simp] theorem State.setV_key (s : State) (x : Reg) (b : Byte) : (s.setV x b).key = s.key := rfl
@[simp] theorem State.setV_mode (s : State) (x : Reg) (b : Byte) : (s.setV x b).mode = s.mode := rfl
@[simp] theorem State.setV_cfg (s : State) (x : Reg) (b : Byte) : (s.setV x b).cfg = s.cfg := rfl
@[simp] theorem State.setV_draws (s : State) (x : Reg) (b : Byte) : (s.setV x b).draws = s.draws := rfl

@[simp] theorem State.setAllV_mem (s : State) (w : Vector Byte 16) : (s.setAllV w).mem = s.mem := rfl
@[simp] theorem State.setAllV_v (s : State) (w : Vector Byte 16) : (s.setAllV w).v = w := rfl
@[simp] theorem State.setAllV_i (s : State) (w : Vector Byte 16) : (s.setAllV w).i = s.i := rfl
@[simp] theorem State.setAllV_pc (s : State) (w : Vector Byte 16) : (s.setAllV w).pc = s.pc := rfl
@[simp] theorem State.setAllV_sp (s : State) (w : Vector Byte 16) : (s.setAllV w).sp = s.sp := rfl
@[simp] theorem State.setAllV_stack (s : State) (w : Vector Byte 16) : (s.setAllV w).stack = s.stack := rfl
@[simp] theorem State.setAllV_dt (s : State) (w : Vector Byte 16) : (s.setAllV w).dt = s.dt := rfl
@[simp] theorem State.setAllV_st (s : State) (w : Vector Byte 16) : (s.setAllV w).st = s.st := rfl
@[simp] theorem State.setAllV_disp (s : State) (w : Vector Byte 16) : (s.setAllV w).disp = s.disp := rfl
@[simp] theorem State.setAllV_dirty (s : State) (w : Vector Byte 16) : (s.setAllV w).dirty = s.dirty := rfl
@[simp] theorem State.setAllV_key (s : State) (w : Vector Byte 16) : (s.setAllV w).key = s.key := rfl
@[simp] theorem State.setAllV_mode (s : State) (w : Vector Byte 16) : (s.setAllV w).mode = s.mode := rfl
@[simp] theorem State.setAllV_cfg (s : State) (w : Vector Byte 16) : (s.setAllV w).cfg = s.cfg := rfl
@[simp] theorem State.setAllV_draws (s : State) (w : Vector Byte 16) : (s.setAllV w).draws = s.draws := rfl

@[simp] theorem State.setI_mem (s : State) (w : Word) : (s.setI w).mem = s.mem := rfl
@[simp] theorem State.setI_v (s : State) (w : Word) : (s.setI w).v = s.v := rfl
@[simp] theorem State.setI_i (s : State) (w : Word) : (s.setI w).i = w := rfl
@[simp] theorem State.setI_pc (s : State) (w : Word) : (s.setI w).pc = s.pc := rfl
@[simp] theorem State.setI_sp (s : State) (w : Word) : (s.setI w).sp = s.sp := rfl
@[simp] theorem State.setI_stack (s : State) (w : Word) : (s.setI w).stack = s.stack := rfl
@[simp] theorem State.setI_dt (s : State) (w : Word) : (s.setI w).dt = s.dt := rfl
@[simp] theorem State.setI_st (s : State) (w : Word) : (s.setI w).st = s.st := rfl
@[simp] theorem State.setI_disp (s : State) (w : Word) : (s.setI w).disp = s.disp := rfl
@[simp] theorem State.setI_dirty (s : State) (w : Word) : (s.setI w).dirty = s.dirty := rfl
@[simp] theorem State.setI_key (s : State) (w : Word) : (s.setI w).key = s.key := rfl
@[simp] theorem State.setI_mode (s : State) (w : Word) : (s.setI w).mode = s.mode := rfl
@[simp] theorem State.setI_cfg (s : State) (w : Word) : (s.setI w).cfg = s.cfg := rfl
@[simp] theorem State.setI_draws (s : State) (w : Word) : (s.setI w).draws = s.draws := rfl

@[simp] theorem State.setPc_mem (s : State) (w : Word) : (s.setPc w).mem = s.mem := rfl
@[simp] theorem State.setPc_v (s : State) (w : Word) : (s.setPc w).v = s.v := rfl
@[simp] theorem State.setPc_i (s : State) (w : Word) : (s.setPc w).i = s.i := rfl
@[simp] theorem State.setPc_pc (s : State) (w : Word) : (s.setPc w).pc = w := rfl
@[simp] theorem State.setPc_sp (s : State) (w : Word) : (s.setPc w).sp = s.sp := rfl
@[simp] theorem State.setPc_stack (s : State) (w : Word) : (s.setPc w).stack = s.stack := rfl
@[simp] theorem State.setPc_dt (s : State) (w : Word) : (s.setPc w).dt = s.dt := rfl
@[simp] theorem State.setPc_st (s : State) (w : Word) : (s.setPc w).st = s.st := rfl
@[simp] theorem State.setPc_disp (s : State) (w : Word) : (s.setPc w).disp = s.disp := rfl
@[simp] theorem State.setPc_dirty (s : State) (w : Word) : (s.setPc w).dirty = s.dirty := rfl
@[simp] theorem State.setPc_key (s : State) (w : Word) : (s.setPc w).key = s.key := rfl
@[simp] theorem State.setPc_mode (s : State) (w : Word) : (s.setPc w).mode = s.mode := rfl
@[simp] theorem State.setPc_cfg (s : State) (w : Word) : (s.setPc w).cfg = s.cfg := rfl
@[simp] theorem State.setPc_draws (s : State) (w : Word) : (s.setPc w).draws = s.draws := rfl

@[simp] theorem State.setSp_mem (s : State) (n : Fin 17) : (s.setSp n).mem = s.mem := rfl
@[simp] theorem State.setSp_v (s : State) (n : Fin 17) : (s.setSp n).v = s.v := rfl
@[simp] theorem State.setSp_i (s : State) (n : Fin 17) : (s.setSp n).i = s.i := rfl
@[simp] theorem State.setSp_pc (s : State) (n : Fin 17) : (s.setSp n).pc = s.pc := rfl
@[simp] theorem State.setSp_sp (s : State) (n : Fin 17) : (s.setSp n).sp = n := rfl
@[simp] theorem State.setSp_stack (s : State) (n : Fin 17) : (s.setSp n).stack = s.stack := rfl
@[simp] theorem State.setSp_dt (s : State) (n : Fin 17) : (s.setSp n).dt = s.dt := rfl
@[simp] theorem State.setSp_st (s : State) (n : Fin 17) : (s.setSp n).st = s.st := rfl
@[simp] theorem State.setSp_disp (s : State) (n : Fin 17) : (s.setSp n).disp = s.disp := rfl
@[simp] theorem State.setSp_dirty (s : State) (n : Fin 17) : (s.setSp n).dirty = s.dirty := rfl
@[simp] theorem State.setSp_key (s : State) (n : Fin 17) : (s.setSp n).key = s.key := rfl
@[simp] theorem State.setSp_mode (s : State) (n : Fin 17) : (s.setSp n).mode = s.mode := rfl
@[simp] theorem State.setSp_cfg (s : State) (n : Fin 17) : (s.setSp n).cfg = s.cfg := rfl
@[simp] theorem State.setSp_draws (s : State) (n : Fin 17) : (s.setSp n).draws = s.draws := rfl

@[simp] theorem State.setStack_mem (s : State) (j : Fin 16) (w : Word) : (s.setStack j w).mem = s.mem := rfl
@[simp] theorem State.setStack_v (s : State) (j : Fin 16) (w : Word) : (s.setStack j w).v = s.v := rfl
@[simp] theorem State.setStack_i (s : State) (j : Fin 16) (w : Word) : (s.setStack j w).i = s.i := rfl
@[simp] theorem State.setStack_pc (s : State) (j : Fin 16) (w : Word) : (s.setStack j w).pc = s.pc := rfl
@[simp] theorem State.setStack_sp (s : State) (j : Fin 16) (w : Word) : (s.setStack j w).sp = s.sp := rfl
@[simp] theorem State.setStack_stack (s : State) (j : Fin 16) (w : Word) : (s.setStack j w).stack = s.stack.set j.val w := rfl
@[simp] theorem State.setStack_dt (s : State) (j : Fin 16) (w : Word) : (s.setStack j w).dt = s.dt := rfl
@[simp] theorem State.setStack_st (s : State) (j : Fin 16) (w : Word) : (s.setStack j w).st = s.st := rfl
@[simp] theorem State.setStack_disp (s : State) (j : Fin 16) (w : Word) : (s.setStack j w).disp = s.disp := rfl
@[simp] theorem State.setStack_dirty (s : State) (j : Fin 16) (w : Word) : (s.setStack j w).dirty = s.dirty := rfl
@[simp] theorem State.setStack_key (s : State) (j : Fin 16) (w : Word) : (s.setStack j w).key = s.key := rfl
@[simp] theorem State.setStack_mode (s : State) (j : Fin 16) (w : Word) : (s.setStack j w).mode = s.mode := rfl
@[simp] theorem State.setStack_cfg (s : State) (j : Fin 16) (w : Word) : (s.setStack j w).cfg = s.cfg := rfl
@[simp] theorem State.setStack_draws (s : State) (j : Fin 16) (w : Word) : (s.setStack j w).draws = s.draws := rfl

@[simp] theorem State.setDt_mem (s : State) (b : Byte) : (s.setDt b).mem = s.mem := rfl
@[simp] theorem State.setDt_v (s : State) (b : Byte) : (s.setDt b).v = s.v := rfl
@[simp] theorem State.setDt_i (s : State) (b : Byte) : (s.setDt b).i = s.i := rfl
@[simp] theorem State.setDt_pc (s : State) (b : Byte) : (s.setDt b).pc = s.pc := rfl
@[simp] theorem State.setDt_sp (s : State) (b : Byte) : (s.setDt b).sp = s.sp := rfl
@[simp] theorem State.setDt_stack (s : State) (b : Byte) : (s.setDt b).stack = s.stack := rfl
@[simp] theorem State.setDt_dt (s : State) (b : Byte) : (s.setDt b).dt = b := rfl
@[simp] theorem State.setDt_st (s : State) (b : Byte) : (s.setDt b).st = s.st := rfl
@[simp] theorem State.setDt_disp (s : State) (b : Byte) : (s.setDt b).disp = s.disp := rfl
@[simp] theorem State.setDt_dirty (s : State) (b : Byte) : (s.setDt b).dirty = s.dirty := rfl
@[simp] theorem State.setDt_key (s : State) (b : Byte) : (s.setDt b).key = s.key := rfl
@[simp] theorem State.setDt_mode (s : State) (b : Byte) : (s.setDt b).mode = s.mode := rfl
@[simp] theorem State.setDt_cfg (s : State) (b : Byte) : (s.setDt b).cfg = s.cfg := rfl
@[simp] theorem State.setDt_draws (s : State) (b : Byte) : (s.setDt b).draws = s.draws := rfl

@[simp] theorem State.setSt_mem (s : State) (b : Byte) : (s.setSt b).mem = s.mem := rfl
@[simp] theorem State.setSt_v (s : State) (b : Byte) : (s.setSt b).v = s.v := rfl
@[simp] theorem State.setSt_i (s : State) (b : Byte) : (s.setSt b).i = s.i := rfl
@[simp] theorem State.setSt_pc (s : State) (b : Byte) : (s.setSt b).pc = s.pc := rfl
@[simp] theorem State.setSt_sp (s : State) (b : Byte) : (s.setSt b).sp = s.sp := rfl
@[simp] theorem State.setSt_stack (s : State) (b : Byte) : (s.setSt b).stack = s.stack := rfl
@[simp] theorem State.setSt_dt (s : State) (b : Byte) : (s.setSt b).dt = s.dt := rfl
@[simp] theorem State.setSt_st (s : State) (b : Byte) : (s.setSt b).st = b := rfl
@[simp] theorem State.setSt_disp (s : State) (b : Byte) : (s.setSt b).disp = s.disp := rfl
@[simp] theorem State.setSt_dirty (s : State) (b : Byte) : (s.setSt b).dirty = s.dirty := rfl
@[simp] theorem State.setSt_key (s : State) (b : Byte) : (s.setSt b).key = s.key := rfl
@[simp] theorem State.setSt_mode (s : State) (b : Byte) : (s.setSt b).mode = s.mode := rfl
@[simp] theorem State.setSt_cfg (s : State) (b : Byte) : (s.setSt b).cfg = s.cfg := rfl
@[simp] theorem State.setSt_draws (s : State) (b : Byte) : (s.setSt b).draws = s.draws := rfl

@[simp] theorem State.setDisp_mem (s : State) (d : Display) : (s.setDisp d).mem = s.mem := rfl
@[simp] theorem State.setDisp_v (s : State) (d : Display) : (s.setDisp d).v = s.v := rfl
@[simp] theorem State.setDisp_i (s : State) (d : Display) : (s.setDisp d).i = s.i := rfl
@[simp] theorem State.setDisp_pc (s : State) (d : Display) : (s.setDisp d).pc = s.pc := rfl
@[simp] theorem State.setDisp_sp (s : State) (d : Display) : (s.setDisp d).sp = s.sp := rfl
@[simp] theorem State.setDisp_stack (s : State) (d : Display) : (s.setDisp d).stack = s.stack := rfl
@[simp] theorem State.setDisp_dt (s : State) (d : Display) : (s.setDisp d).dt = s.dt := rfl
@[simp] theorem State.setDisp_st (s : State) (d : Display) : (s.setDisp d).st = s.st := rfl
@[simp] theorem State.setDisp_disp (s : State) (d : Display) : (s.setDisp d).disp = d := rfl
@[simp] theorem State.setDisp_dirty (s : State) (d : Display) : (s.setDisp d).dirty = s.dirty := rfl
@[simp] theorem State.setDisp_key (s : State) (d : Display) : (s.setDisp d).key = s.key := rfl
@[simp] theorem State.setDisp_mode (s : State) (d : Display) : (s.setDisp d).mode = s.mode := rfl
@[simp] theorem State.setDisp_cfg (s : State) (d : Display) : (s.setDisp d).cfg = s.cfg := rfl
@[simp] theorem State.setDisp_draws (s : State) (d : Display) : (s.setDisp d).draws = s.draws := rfl

@[simp] theorem State.setDirty_mem (s : State) (b : Bool) : (s.setDirty b).mem = s.mem := rfl
@[simp] theorem State.setDirty_v (s : State) (b : Bool) : (s.setDirty b).v = s.v := rfl
@[simp] theorem State.setDirty_i (s : State) (b : Bool) : (s.setDirty b).i = s.i := rfl
@[simp] theorem State.setDirty_pc (s : State) (b : Bool) : (s.setDirty b).pc = s.pc := rfl
@[simp] theorem State.setDirty_sp (s : State) (b : Bool) : (s.setDirty b).sp = s.sp := rfl
@[simp] theorem State.setDirty_stack (s : State) (b : Bool) : (s.setDirty b).stack = s.stack := rfl
@[simp] theorem State.setDirty_dt (s : State) (b : Bool) : (s.setDirty b).dt = s.dt := rfl
@[simp] theorem State.setDirty_st (s : State) (b : Bool) : (s.setDirty b).st = s.st := rfl
@[simp] theorem State.setDirty_disp (s : State) (b : Bool) : (s.setDirty b).disp = s.disp := rfl
@[simp] theorem State.setDirty_dirty (s : State) (b : Bool) : (s.setDirty b).dirty = b := rfl
@[simp] theorem State.setDirty_key (s : State) (b : Bool) : (s.setDirty b).key = s.key := rfl
@[simp] theorem State.setDirty_mode (s : State) (b : Bool) : (s.setDirty b).mode = s.mode := rfl
@[simp] theorem State.setDirty_cfg (s : State) (b : Bool) : (s.setDirty b).cfg = s.cfg := rfl
@[simp] theorem State.setDirty_draws (s : State) (b : Bool) : (s.setDirty b).draws = s.draws := rfl

@[simp] theorem State.setKeyFlag_mem (s : State) (k : Key) (b : Bool) : (s.setKeyFlag k b).mem = s.mem := rfl
@[simp] theorem State.setKeyFlag_v (s : State) (k : Key) (b : Bool) : (s.setKeyFlag k b).v = s.v := rfl
@[simp] theorem State.setKeyFlag_i (s : State) (k : Key) (b : Bool) : (s.setKeyFlag k b).i = s.i := rfl
@[simp] theorem State.setKeyFlag_pc (s : State) (k : Key) (b : Bool) : (s.setKeyFlag k b).pc = s.pc := rfl
@[simp] theorem State.setKeyFlag_sp (s : State) (k : Key) (b : Bool) : (s.setKeyFlag k b).sp = s.sp := rfl
@[simp] theorem State.setKeyFlag_stack (s : State) (k : Key) (b : Bool) : (s.setKeyFlag k b).stack = s.stack := rfl
@[simp] theorem State.setKeyFlag_dt (s : State) (k : Key) (b : Bool) : (s.setKeyFlag k b).dt = s.dt := rfl
@[simp] theorem State.setKeyFlag_st (s : State) (k : Key) (b : Bool) : (s.setKeyFlag k b).st = s.st := rfl
@[simp] theorem State.setKeyFlag_disp (s : State) (k : Key) (b : Bool) : (s.setKeyFlag k b).disp = s.disp := rfl
@[simp] theorem State.setKeyFlag_dirty (s : State) (k : Key) (b : Bool) : (s.setKeyFlag k b).dirty = s.dirty := rfl
@[simp] theorem State.setKeyFlag_key (s : State) (k : Key) (b : Bool) : (s.setKeyFlag k b).key = s.key.set k.val b := rfl
@[simp] theorem State.setKeyFlag_mode (s : State) (k : Key) (b : Bool) : (s.setKeyFlag k b).mode = s.mode := rfl
@[simp] theorem State.setKeyFlag_cfg (s : State) (k : Key) (b : Bool) : (s.setKeyFlag k b).cfg = s.cfg := rfl
@[simp] theorem State.setKeyFlag_draws (s : State) (k : Key) (b : Bool) : (s.setKeyFlag k b).draws = s.draws := rfl

@[simp] theorem State.setMode_mem (s : State) (m : Mode) : (s.setMode m).mem = s.mem := rfl
@[simp] theorem State.setMode_v (s : State) (m : Mode) : (s.setMode m).v = s.v := rfl
@[simp] theorem State.setMode_i (s : State) (m : Mode) : (s.setMode m).i = s.i := rfl
@[simp] theorem State.setMode_pc (s : State) (m : Mode) : (s.setMode m).pc = s.pc := rfl
@[simp] theorem State.setMode_sp (s : State) (m : Mode) : (s.setMode m).sp = s.sp := rfl
@[simp] theorem State.setMode_stack (s : State) (m : Mode) : (s.setMode m).stack = s.stack := rfl
@[simp] theorem State.setMode_dt (s : State) (m : Mode) : (s.setMode m).dt = s.dt := rfl
@[simp] theorem State.setMode_st (s : State) (m : Mode) : (s.setMode m).st = s.st := rfl
@[simp] theorem State.setMode_disp (s : State) (m : Mode) : (s.setMode m).disp = s.disp := rfl
@[simp] theorem State.setMode_dirty (s : State) (m : Mode) : (s.setMode m).dirty = s.dirty := rfl
@[simp] theorem State.setMode_key (s : State) (m : Mode) : (s.setMode m).key = s.key := rfl
@[simp] theorem State.setMode_mode (s : State) (m : Mode) : (s.setMode m).mode = m := rfl
@[simp] theorem State.setMode_cfg (s : State) (m : Mode) : (s.setMode m).cfg = s.cfg := rfl
@[simp] theorem State.setMode_draws (s : State) (m : Mode) : (s.setMode m).draws = s.draws := rfl

@[simp] theorem State.setMem_mem (s : State) (m : List Host.Cell) : (s.setMem m).mem = m := rfl
@[simp] theorem State.setMem_v (s : State) (m : List Host.Cell) : (s.setMem m).v = s.v := rfl
@[simp] theorem State.setMem_i (s : State) (m : List Host.Cell) : (s.setMem m).i = s.i := rfl
@[simp] theorem State.setMem_pc (s : State) (m : List Host.Cell) : (s.setMem m).pc = s.pc := rfl
@[simp] theorem State.setMem_sp (s : State) (m : List Host.Cell) : (s.setMem m).sp = s.sp := rfl
@[simp] theorem State.setMem_stack (s : State) (m : List Host.Cell) : (s.setMem m).stack = s.stack := rfl
@[simp] theorem State.setMem_dt (s : State) (m : List Host.Cell) : (s.setMem m).dt = s.dt := rfl
@[simp] theorem State.setMem_st (s : State) (m : List Host.Cell) : (s.setMem m).st = s.st := rfl
@[simp] theorem State.setMem_disp (s : State) (m : List Host.Cell) : (s.setMem m).disp = s.disp := rfl
@[simp] theorem State.setMem_dirty (s : State) (m : List Host.Cell) : (s.setMem m).dirty = s.dirty := rfl
@[simp] theorem State.setMem_key (s : State) (m : List Host.Cell) : (s.setMem m).key = s.key := rfl
@[simp] theorem State.setMem_mode (s : State) (m : List Host.Cell) : (s.setMem m).mode = s.mode := rfl
@[simp] theorem State.setMem_cfg (s : State) (m : List Host.Cell) : (s.setMem m).cfg = s.cfg := rfl
@[simp] theorem State.setMem_draws (s : State) (m : List Host.Cell) : (s.setMem m).draws = s.draws := rfl

@[simp] theorem State.setDraws_mem (s : State) (k : Nat) : (s.setDraws k).mem = s.mem := rfl
@[simp] theorem State.setDraws_v (s : State) (k : Nat) : (s.setDraws k).v = s.v := rfl
@[simp] theorem State.setDraws_i (s : State) (k : Nat) : (s.setDraws k).i = s.i := rfl
@[simp] theorem State.setDraws_pc (s : State) (k : Nat) : (s.setDraws k).pc = s.pc := rfl
@[simp] theorem State.setDraws_sp (s : State) (k : Nat) : (s.setDraws k).sp = s.sp := rfl
@[simp] theorem State.setDraws_stack (s : State) (k : Nat) : (s.setDraws k).stack = s.stack := rfl
@[simp] theorem State.setDraws_dt (s : State) (k : Nat) : (s.setDraws k).dt = s.dt := rfl
@[simp] theorem State.setDraws_st (s : State) (k : Nat) : (s.setDraws k).st = s.st := rfl
@[simp] theorem State.setDraws_disp (s : State) (k : Nat) : (s.setDraws k).disp = s.disp := rfl
@[simp] theorem State.setDraws_dirty (s : State) (k : Nat) : (s.setDraws k).dirty = s.dirty := rfl
@[simp] theorem State.setDraws_key (s : State) (k : Nat) : (s.setDraws k).key = s.key := rfl
@[simp] theorem State.setDraws_mode (s : State) (k : Nat) : (s.setDraws k).mode = s.mode := rfl
@[simp] theorem State.setDraws_cfg (s : State) (k : Nat) : (s.setDraws k).cfg = s.cfg := rfl
@[simp] theorem State.setDraws_draws (s : State) (k : Nat) : (s.setDraws k).draws = k := rfl

/-! ### Registers, keys and bytes through the accessors -/

theorem State.getV_setV (s : State) (x r : Reg) (b : Byte) :
    (s.setV x b).getV r = if r = x then b else s.getV r := by
  simp only [State.getV, State.setV, Vector.getElem_set, Fin.ext_iff, eq_comm]

@[simp] theorem State.getV_setV_same (s : State) (x : Reg) (b : Byte) : (s.setV x b).getV x = b := by
  simp [State.getV_setV]

@[simp] theorem State.getV_setV_of_ne (s : State) {x r : Reg} (b : Byte) (h : r ≠ x) :
    (s.setV x b).getV r = s.getV r := by
  simp [State.getV_setV, h]

theorem State.getKey_setKeyFlag (s : State) (k j : Key) (b : Bool) :
    (s.setKeyFlag k b).getKey j = if j = k then b else s.getKey j := by
  simp only [State.getKey, State.setKeyFlag, Vector.getElem_set, Fin.ext_iff, eq_comm]

@[simp] theorem State.getV_setI (s : State) (w : Word) (r : Reg) : (s.setI w).getV r = s.getV r := rfl
@[simp] theorem State.getV_setPc (s : State) (w : Word) (r : Reg) : (s.setPc w).getV r = s.getV r := rfl
@[simp] theorem State.getV_setSp (s : State) (n : Fin 17) (r : Reg) : (s.setSp n).getV r = s.getV r := rfl
@[simp] theorem State.getV_setStack (s : State) (j : Fin 16) (w : Word) (r : Reg) : (s.setStack j w).getV r = s.getV r := rfl
@[simp] theorem State.getV_setDt (s : State) (b : Byte) (r : Reg) : (s.setDt b).getV r = s.getV r := rfl
@[simp] theorem State.getV_setSt (s : State) (b : Byte) (r : Reg) : (s.setSt b).getV r = s.getV r := rfl
@[simp] theorem State.getV_setDisp (s : State) (d : Display) (r : Reg) : (s.setDisp d).getV r = s.getV r := rfl
@[simp] theorem State.getV_setDirty (s : State) (b : Bool) (r : Reg) : (s.setDirty b).getV r = s.getV r := rfl
@[simp] theorem State.getV_setKeyFlag (s : State) (k : Key) (b : Bool) (r : Reg) : (s.setKeyFlag k b).getV r = s.getV r := rfl
@[simp] theorem State.getV_setMode (s : State) (m : Mode) (r : Reg) : (s.setMode m).getV r = s.getV r := rfl
@[simp] theorem State.getV_setMem (s : State) (m : List Host.Cell) (r : Reg) : (s.setMem m).getV r = s.getV r := rfl
@[simp] theorem State.getV_setDraws (s : State) (k : Nat) (r : Reg) : (s.setDraws k).getV r = s.getV r := rfl

@[simp] theorem State.getKey_setV (s : State) (x : Reg) (b : Byte) (q : Key) : (s.setV x b).getKey q = s.getKey q := rfl
@[simp] theorem State.getKey_setAllV (s : State) (w : Vector Byte 16) (q : Key) : (s.setAllV w).getKey q = s.getKey q := rfl
@[simp] theorem State.getKey_setI (s : State) (w : Word) (q : Key) : (s.setI w).getKey q = s.getKey q := rfl
@[simp] theorem State.getKey_setPc (s : State) (w : Word) (q : Key) : (s.setPc w).getKey q = s.getKey q := rfl
@[simp] theorem State.getKey_setSp (s : State) (n : Fin 17) (q : Key) : (s.setSp n).getKey q = s.getKey q := rfl
@[simp] theorem State.getKey_setStack (s : State) (j : Fin 16) (w : Word) (q : Key) : (s.setStack j w).getKey q = s.getKey q := rfl
@[simp] theorem State.getKey_setDt (s : State) (b : Byte) (q : Key) : (s.setDt b).getKey q = s.getKey q := rfl
@[simp] theorem State.getKey_setSt (s : State) (b : Byte) (q : Key) : (s.setSt b).getKey q = s.getKey q := rfl
@[simp] theorem State.getKey_setDisp (s : State) (d : Display) (q : Key) : (s.setDisp d).getKey q = s.getKey q := rfl
@[simp] theorem State.getKey_setDirty (s : State) (b : Bool) (q : Key) : (s.setDirty b).getKey q = s.getKey q := rfl
@[simp] theorem State.getKey_setMode (s : State) (m : Mode) (q : Key) : (s.setMode m).getKey q = s.getKey q := rfl
@[simp] theorem State.getKey_setMem (s : State) (m : List Host.Cell) (q : Key) : (s.setMem m).getKey q = s.getKey q := rfl
@[simp] theorem State.getKey_setDraws (s : State) (k : Nat) (q : Key) : (s.setDraws k).getKey q = s.getKey q := rfl

@[simp] theorem State.byteAt_setV (s : State) (x : Reg) (b : Byte) (a : Nat) : (s.setV x b).byteAt a = s.byteAt a := rfl
@[simp] theorem State.byteAt_setAllV (s : State) (w : Vector Byte 16) (a : Nat) : (s.setAllV w).byteAt a = s.byteAt a := rfl
@[simp] theorem State.byteAt_setI (s : State) (w : Word) (a : Nat) : (s.setI w).byteAt a = s.byteAt a := rfl
@[simp] theorem State.byteAt_setPc (s : State) (w : Word) (a : Nat) : (s.setPc w).byteAt a = s.byteAt a := rfl
@[simp] theorem State.byteAt_setSp (s : State) (n : Fin 17) (a : Nat) : (s.setSp n).byteAt a = s.byteAt a := rfl
@[simp] theorem State.byteAt_setStack (s : State) (j : Fin 16) (w : Word) (a : Nat) : (s.setStack j w).byteAt a = s.byteAt a := rfl
@[simp] theorem State.byteAt_setDt (s : State) (b : Byte) (a : Nat) : (s.setDt b).byteAt a = s.byteAt a := rfl
@[simp] theorem State.byteAt_setSt (s : State) (b : Byte) (a : Nat) : (s.setSt b).byteAt a = s.byteAt a := rfl
@[simp] theorem State.byteAt_setDisp (s : State) (d : Display) (a : Nat) : (s.setDisp d).byteAt a = s.byteAt a := rfl
@[simp] theorem State.byteAt_setDirty (s : State) (b : Bool) (a : Nat) : (s.setDirty b).byteAt a = s.byteAt a := rfl
@[simp] theorem State.byteAt_setKeyFlag (s : State) (k : Key) (b : Bool) (a : Nat) : (s.setKeyFlag k b).byteAt a = s.byteAt a := rfl
@[simp] theorem State.byteAt_setMode (s : State) (m : Mode) (a : Nat) : (s.setMode m).byteAt a = s.byteAt a := rfl
@[simp] theorem State.byteAt_setDraws (s : State) (k : Nat) (a : Nat) : (s.setDraws k).byteAt a = s.byteAt a := rfl

end Sys2Proof.Machine
end

