-- ==== Sys2Proof/Laws/Memory.lean ====
section
/-! SUPPORT. Memory: the canonical form is kept, a write is read back, and what each access answers. -/

namespace Sys2Proof.Machine

/-! ### The list of cells -/

theorem Memory.wf_nil (font : Vector Byte 80) : Memory.wf font [] := by
  simp [Memory.wf]

theorem Memory.wf_cons {font : Vector Byte 80} {c : Host.Cell} {m : List Host.Cell} :
    Memory.wf font (c :: m) ↔
      (∀ d ∈ m, c.1 < d.1) ∧ c.1 < 4096 ∧ c.2 ≠ Memory.unlisted font c.1 ∧ Memory.wf font m := by
  simp only [Memory.wf, List.pairwise_cons, List.mem_cons, forall_eq_or_imp]
  tauto

/-- Where every listed address lies above `a`, `a` reads as unlisted. -/
theorem Memory.read_of_lt {font : Vector Byte 80} {m : List Host.Cell} {a : Nat} (h : ∀ d ∈ m, a < d.1) :
    Memory.read font m a = Memory.unlisted font a := by
  induction m with
  | nil => rfl
  | cons c m ih =>
    obtain ⟨k, b⟩ := c
    have hk : k ≠ a := by have := h (k, b) (by simp); simp at this; omega
    simp only [Memory.read, if_neg hk]
    exact ih fun d hd => h d (by simp [hd])

/-- Every address a write leaves listed was listed before or is the one written. -/
theorem Memory.mem_write {font : Vector Byte 80} {m : List Host.Cell} {a : Nat} {b : Byte} {d : Host.Cell}
    (h : d ∈ Memory.write font m a b) : d ∈ m ∨ (d = (a, b) ∧ b ≠ Memory.unlisted font a) := by
  induction m with
  | nil =>
    simp only [Memory.write] at h
    split at h
    · simp at h
    · next hb => exact .inr ⟨by simpa using h, hb⟩
  | cons c m ih =>
    obtain ⟨k, e⟩ := c
    simp only [Memory.write] at h
    split at h
    · split at h
      · exact .inl h
      · next hb => rcases List.mem_cons.1 h with h | h
                   · exact .inr ⟨h, hb⟩
                   · exact .inl h
    · split at h
      · split at h
        · exact .inl (by simp [h])
        · next hb => rcases List.mem_cons.1 h with h | h
                     · exact .inr ⟨h, hb⟩
                     · exact .inl (by simp [h])
      · rcases List.mem_cons.1 h with h | h
        · exact .inl (by simp [h])
        · rcases ih h with h | h
          · exact .inl (by simp [h])
          · exact .inr h

/-- A write inside memory keeps the canonical form. -/
theorem Memory.wf_write {font : Vector Byte 80} {m : List Host.Cell} (hm : Memory.wf font m) {a : Nat} (ha : a < 4096)
    (b : Byte) : Memory.wf font (Memory.write font m a b) := by
  induction m with
  | nil =>
    simp only [Memory.write]
    split
    · exact hm
    · next hb => exact Memory.wf_cons.2 ⟨by simp, ha, hb, hm⟩
  | cons c m ih =>
    obtain ⟨k, e⟩ := c
    obtain ⟨hlt, hk, he, hrest⟩ := Memory.wf_cons.1 hm
    simp only [Memory.write]
    split
    · next hak =>
      split
      · exact hm
      · next hb =>
        refine Memory.wf_cons.2 ⟨fun d hd => ?_, ha, hb, hm⟩
        rcases List.mem_cons.1 hd with hd | hd
        · subst hd; exact hak
        · exact lt_trans hak (hlt d hd)
    · split
      · next hak =>
        subst hak
        split
        · exact hrest
        · next hb => exact Memory.wf_cons.2 ⟨hlt, ha, hb, hrest⟩
      · refine Memory.wf_cons.2 ⟨fun d hd => ?_, hk, he, ih hrest⟩
        rcases Memory.mem_write hd with hd | ⟨hd, -⟩
        · exact hlt d hd
        · subst hd; simp only; omega

/-- The byte written is read back, and every other byte is as before. -/
theorem Memory.read_write {font : Vector Byte 80} {m : List Host.Cell} (hm : Memory.wf font m) (a c : Nat) (b : Byte) :
    Memory.read font (Memory.write font m a b) c = if c = a then b else Memory.read font m c := by
  induction m with
  | nil =>
    simp only [Memory.write]
    split
    · next hb => simp only [Memory.read]; split <;> simp_all
    · simp [Memory.read, eq_comm]
  | cons d m ih =>
    obtain ⟨k, e⟩ := d
    obtain ⟨hlt, -, -, hrest⟩ := Memory.wf_cons.1 hm
    simp only [Memory.write]
    split
    · next hak =>
      split
      · next hb =>
        split
        · next hc =>
          subst hc hb
          exact Memory.read_of_lt fun d hd => by
            rcases List.mem_cons.1 hd with hd | hd
            · subst hd; exact hak
            · exact lt_trans hak (hlt d hd)
        · rfl
      · by_cases hc : c = a
        · simp [Memory.read, hc]
        · simp [Memory.read, hc, Ne.symm hc]
    · split
      · next hak =>
        subst hak
        split
        · next hb =>
          split
          · next hc => subst hc hb; exact Memory.read_of_lt hlt
          · next hc => simp [Memory.read, Ne.symm hc]
        · by_cases hc : c = a
          · simp [Memory.read, hc]
          · simp [Memory.read, hc, Ne.symm hc]
      · next hak =>
        simp only [Memory.read]
        split
        · next hkc => rw [if_neg (by omega)]
        · exact ih hrest

/-! ### The state's bytes -/

theorem State.putByte_fields (s : State) (a : Nat) (b : Byte) : s.putByte a b = { s with mem := (s.putByte a b).mem } := rfl

@[simp] theorem State.putByte_cfg (s : State) (a : Nat) (b : Byte) : (s.putByte a b).cfg = s.cfg := rfl

theorem State.wf_putByte {s : State} (hs : Memory.wf s.cfg.font s.mem) {a : Nat} (ha : a < 4096) (b : Byte) :
    Memory.wf (s.putByte a b).cfg.font (s.putByte a b).mem :=
  Memory.wf_write hs ha b

theorem State.byteAt_putByte {s : State} (hs : Memory.wf s.cfg.font s.mem) (a c : Nat) (b : Byte) :
    (s.putByte a b).byteAt c = if c = a then b else s.byteAt c :=
  Memory.read_write hs a c b

/-! ### Single accesses -/

/-- What a store of one byte does: MemBounds, ReservedWrite, or the byte put in place. -/
theorem memWrite_cases (s : State) (a : Nat) (b : Byte) :
    (0xFFF < a ∧ memWrite s a b = .error ⟨.memBounds, .address a⟩) ∨
    (s.cfg.reservedWrite = .fault ∧ a ≤ 0x1FF ∧ memWrite s a b = .error ⟨.reservedWrite, .address a⟩) ∨
    (a ≤ 0xFFF ∧ (s.cfg.reservedWrite = .allow ∨ 0x1FF < a) ∧ memWrite s a b = .ok (s.putByte a b)) := by
  unfold memWrite reservedEnd
  split
  · next h => exact .inl ⟨h, rfl⟩
  · next h =>
    split
    · next h2 => exact .inr (.inl ⟨h2.1, h2.2, rfl⟩)
    · next h2 =>
      refine .inr (.inr ⟨by omega, ?_, rfl⟩)
      cases hr : s.cfg.reservedWrite
      · exact .inr (by by_contra hc; exact h2 ⟨hr, by omega⟩)
      · exact .inl rfl

/-- A store of one byte that completes put it at a writable address. -/
theorem memWrite_ok {s t : State} {a : Nat} {b : Byte} (h : memWrite s a b = .ok t) :
    t = s.putByte a b ∧ a ≤ 0xFFF ∧ (s.cfg.reservedWrite = .allow ∨ 0x1FF < a) := by
  rcases memWrite_cases s a b with ⟨-, h2⟩ | ⟨-, -, h2⟩ | ⟨h1, h2, h3⟩
  · simp [h2] at h
  · simp [h2] at h
  · rw [h3] at h
    exact ⟨(Except.ok.inj h).symm, h1, h2⟩

/-! ### Several bytes -/

/-- Stores change memory alone. -/
theorem memWriteBytes_fields {s t : State} {a : Nat} {bs : List Byte} (h : memWriteBytes s a bs = .ok t) :
    t = { s with mem := t.mem } := by
  induction bs generalizing s a with
  | nil => cases h; rfl
  | cons b bs ih =>
    simp only [memWriteBytes] at h
    cases hw : memWrite s a b with
    | error f => simp [hw] at h
    | ok u =>
      simp only [hw] at h
      obtain ⟨rfl, -, -⟩ := memWrite_ok hw
      rw [ih h]
      rfl

/-- Stores keep the canonical form. -/
theorem memWriteBytes_wf {s t : State} {a : Nat} {bs : List Byte} (hs : Memory.wf s.cfg.font s.mem)
    (h : memWriteBytes s a bs = .ok t) : Memory.wf t.cfg.font t.mem := by
  induction bs generalizing s a with
  | nil => cases h; exact hs
  | cons b bs ih =>
    simp only [memWriteBytes] at h
    cases hw : memWrite s a b with
    | error f => simp [hw] at h
    | ok u =>
      simp only [hw] at h
      obtain ⟨rfl, ha, -⟩ := memWrite_ok hw
      exact ih (State.wf_putByte hs (by omega) b) h

/-- Stores that all lie in writable memory complete. -/
theorem memWriteBytes_completes {s : State} {a : Nat} {bs : List Byte} (hr : s.cfg.reservedWrite = .allow ∨ 0x1FF < a)
    (ha : a + bs.length ≤ 0x1000) : ∃ t, memWriteBytes s a bs = .ok t := by
  induction bs generalizing s a with
  | nil => exact ⟨s, rfl⟩
  | cons b bs ih =>
    simp only [List.length_cons] at ha
    rcases memWrite_cases s a b with ⟨h1, -⟩ | ⟨h1, h2, -⟩ | ⟨-, -, h3⟩
    · omega
    · rcases hr with hr | hr
      · simp [hr] at h1
      · omega
    · simp only [memWriteBytes, h3]
      refine ih ?_ (by omega)
      rcases hr with hr | hr
      · exact .inl hr
      · exact .inr (by omega)

/-- What each byte reads as after the stores. -/
theorem memWriteBytes_byteAt {s t : State} {a : Nat} {bs : List Byte} (hs : Memory.wf s.cfg.font s.mem)
    (h : memWriteBytes s a bs = .ok t) (c : Nat) :
    t.byteAt c = if c < a then s.byteAt c else (bs[c - a]?).getD (s.byteAt c) := by
  induction bs generalizing s a with
  | nil => cases h; simp
  | cons b bs ih =>
    simp only [memWriteBytes] at h
    cases hw : memWrite s a b with
    | error f => simp [hw] at h
    | ok u =>
      simp only [hw] at h
      obtain ⟨rfl, ha, -⟩ := memWrite_ok hw
      rw [ih (State.wf_putByte hs (by omega) b) h]
      simp only [State.byteAt_putByte hs]
      rcases Nat.lt_trichotomy c a with hc | hc | hc
      · rw [if_pos (by omega), if_neg (by omega), if_pos hc]
      · subst hc; simp
      · rw [if_neg (by omega), if_neg (by omega), if_neg (by omega), show c - a = (c - (a + 1)) + 1 by omega]
        simp

/-- The stores that fault: below 0x200 under `P_RESERVED_WRITE = FAULT`, at the first address. -/
theorem memWriteBytes_reserved {s : State} {a : Nat} {b : Byte} {bs : List Byte} (hr : s.cfg.reservedWrite = .fault)
    (ha : a ≤ 0x1FF) : memWriteBytes s a (b :: bs) = .error ⟨.reservedWrite, .address a⟩ := by
  simp only [memWriteBytes]
  rcases memWrite_cases s a b with ⟨h1, -⟩ | ⟨-, -, h3⟩ | ⟨-, h2, -⟩
  · omega
  · rw [h3]
  · rcases h2 with h2 | h2
    · simp [hr] at h2
    · omega

/-- The stores that fault: past 0xFFF, at the first address there. -/
theorem memWriteBytes_bounds {s : State} {a : Nat} {bs : List Byte} (hr : s.cfg.reservedWrite = .allow ∨ 0x1FF < a)
    (ha : 0x1000 < a + bs.length) (hn : bs ≠ []) :
    memWriteBytes s a bs = .error ⟨.memBounds, .address (max a 0x1000)⟩ := by
  induction bs generalizing s a with
  | nil => exact absurd rfl hn
  | cons b bs ih =>
    simp only [List.length_cons] at ha
    simp only [memWriteBytes]
    rcases memWrite_cases s a b with ⟨h1, h3⟩ | ⟨h1, h2, -⟩ | ⟨h1, -, h3⟩
    · rw [h3, Nat.max_eq_left (by omega)]
    · rcases hr with hr | hr
      · simp [hr] at h1
      · omega
    · rw [h3]
      simp only
      have hne : bs ≠ [] := by rintro rfl; simp at ha; omega
      rw [ih (s := s.putByte a b) (a := a + 1) (hr.imp id fun h => by omega) (by omega) hne,
        show max (a + 1) 0x1000 = max a 0x1000 by omega]

/-- Reads inside memory answer the bytes there, in order. -/
theorem memReadBytes_ok {s : State} {a n : Nat} (h : a + n ≤ 0x1000 ∨ n = 0) :
    memReadBytes s a n = .ok ((List.range n).map fun k => s.byteAt (a + k)) := by
  induction n generalizing a with
  | zero => rfl
  | succ n ih =>
    simp only [memReadBytes, memRead]
    rw [if_neg (by omega)]
    simp only
    rw [ih (by omega), List.range_succ_eq_map]
    simp only [List.map_cons, List.map_map, Nat.add_zero]
    congr 2
    exact List.map_congr_left fun k _ => by simp [Nat.add_assoc, Nat.add_comm 1 k]

/-- Reads that leave memory fault at the first address past 0xFFF. -/
theorem memReadBytes_bounds {s : State} {a n : Nat} (h : 0x1000 < a + n) (hn : n ≠ 0) :
    memReadBytes s a n = .error ⟨.memBounds, .address (max a 0x1000)⟩ := by
  induction n generalizing a with
  | zero => exact absurd rfl hn
  | succ n ih =>
    by_cases ha : a > 0xFFF
    · simp only [memReadBytes, memRead, if_pos ha]
      rw [show max a 0x1000 = a by omega]
    · simp only [memReadBytes, memRead, if_neg ha]
      rw [ih (a := a + 1) (by omega) (by omega), show max (a + 1) 0x1000 = max a 0x1000 by omega]

end Sys2Proof.Machine
end

