-- ==== Sys2Proof/Laws/Ops.lean ====
section
/-! SUPPORT. What each shared operation can do, once each: faults, stack, fetch, timers, operands, flags, display. -/

namespace Sys2Proof.Machine

/-! ### Faults -/

/-- The outcome of a meaning is always a next state: what the instruction did, or its fault taken. -/
theorem conclude_next {s : State} {i : Instr} {r : Except Trap State} {t : State} (h : conclude s i r = .next t) :
    r = .ok t ∨ ∃ f, r = .error f ∧ t = takeFault s f (some (encode i)) := by
  cases r with
  | ok u => exact .inl (by simpa [conclude] using h)
  | error f => exact .inr ⟨f, rfl, by simpa [conclude, eq_comm] using h⟩

@[simp] theorem conclude_ok (s : State) (i : Instr) (t : State) : conclude s i (.ok t) = .next t := rfl

@[simp] theorem conclude_error (s : State) (i : Instr) (f : Trap) :
    conclude s i (.error f) = .next (takeFault s f (some (encode i))) := rfl

@[simp] theorem takeFault_mode (s : State) (f : Trap) (op : Option Opcode) :
    (takeFault s f op).mode = .faulted ⟨f.cause, s.pc, op, f.detail⟩ := rfl

/-- Taking a fault changes the mode alone. -/
theorem takeFault_eq (s : State) (f : Trap) (op : Option Opcode) :
    takeFault s f op = { s with mode := .faulted ⟨f.cause, s.pc, op, f.detail⟩ } := rfl

/-! ### The program counter -/

theorem advance_eq (s : State) : advance s = { s with pc := s.pc + 2 } := rfl

theorem skipIf_eq (c : Bool) (s : State) : skipIf c s = { s with pc := if c then s.pc + 2 else s.pc } := by
  cases c <;> rfl

/-! ### Fetch -/

/-- A fetch that completes read two bytes inside memory, the high one first. -/
theorem fetch_ok {s : State} {a : Word} {op : Opcode} (h : fetch s a = .ok op) :
    a.toNat ≤ 0xFFE ∧ op = wordOfBytes (s.byteAt a.toNat) (s.byteAt (a.toNat + 1)) := by
  unfold fetch at h
  split at h
  · simp at h
  · exact ⟨by omega, (Except.ok.inj h).symm⟩

theorem fetch_of_le {s : State} {a : Word} (h : a.toNat ≤ 0xFFE) :
    fetch s a = .ok (wordOfBytes (s.byteAt a.toNat) (s.byteAt (a.toNat + 1))) := by
  simp [fetch, show ¬ a.toNat > 0xFFE by omega]

theorem fetch_of_gt {s : State} {a : Word} (h : 0xFFE < a.toNat) : fetch s a = .error ⟨.fetchBounds, .nothing⟩ := by
  simp [fetch, h]

/-! ### The call stack -/

/-- A push that completes wrote the slot at `SP` and raised `SP`. -/
theorem push_ok {s t : State} {w : Word} (h : push s w = .ok t) :
    ∃ hsp : s.sp.val < 16, t = { s with stack := s.stack.set s.sp.val w, sp := ⟨s.sp.val + 1, by omega⟩ } := by
  unfold push at h
  split at h
  · next hsp => exact ⟨hsp, (Except.ok.inj h).symm⟩
  · simp at h

theorem push_full {s : State} {w : Word} (h : s.sp.val = 16) : push s w = .error ⟨.stackOverflow, .nothing⟩ := by
  simp [push, h]

/-- A pop that completes lowered `SP` and answers the slot there, which stays. -/
theorem pop_ok {s t : State} {w : Word} (h : pop s = .ok (w, t)) :
    ∃ hsp : s.sp.val - 1 < 16, 0 < s.sp.val ∧ w = s.stack[s.sp.val - 1] ∧
      t = { s with sp := ⟨s.sp.val - 1, by omega⟩ } := by
  unfold pop at h
  split at h
  · next hsp =>
    have hp := Except.ok.inj h
    exact ⟨by have := s.sp.isLt; omega, hsp, (congrArg Prod.fst hp).symm, (congrArg Prod.snd hp).symm⟩
  · simp at h

theorem pop_empty {s : State} (h : s.sp.val = 0) : pop s = .error ⟨.stackUnderflow, .nothing⟩ := by
  simp [pop, h]

/-! ### Timers -/

theorem countDown_toNat (b : Byte) : (countDown b).toNat = b.toNat - 1 := by
  unfold countDown
  split
  · next h => subst h; rfl
  · next h => bv_omega

theorem tick_eq (s : State) : tick s = { s with dt := countDown s.dt, st := countDown s.st } := rfl

/-- A step's end keeps a fault and ticks otherwise. -/
theorem endStep_cases (t : State) :
    (t.mode.isFaulted = true ∧ endStep t = t) ∨ (t.mode.isFaulted = false ∧ endStep t = tick t) := by
  unfold endStep
  cases h : t.mode.isFaulted <;> simp

/-! ### Operands -/

theorem keyOperand_ok {s : State} {x : Reg} (h : (s.getV x).toNat < 16) :
    keyOperand s x = .ok ⟨(s.getV x).toNat, h⟩ := by
  simp [keyOperand, h]

theorem keyOperand_error {s : State} {x : Reg} (h : 15 < (s.getV x).toNat) :
    keyOperand s x = .error ⟨.keyIndex, .key (s.getV x)⟩ := by
  simp [keyOperand, show ¬ (s.getV x).toNat < 16 by omega]

/-- A register load writes the registers its list reaches. -/
theorem State.getV_loadV (s : State) (bs : List Byte) (r : Reg) :
    (s.loadV bs).getV r = (bs[r.val]?).getD (s.getV r) := by
  simp [State.loadV, State.getV, State.setAllV]

theorem dumpBytes_length (s : State) (x : Reg) : (dumpBytes s x).length = x.val + 1 := by
  simp [dumpBytes]

theorem dumpBytes_getElem? (s : State) (x r : Reg) (h : r.val ≤ x.val) :
    (dumpBytes s x)[r.val]? = some (s.getV r) := by
  have : r.val < x.val + 1 := by omega
  simp [dumpBytes, this, State.getV]

theorem indexedTarget_toNat (nnn : Addr) (s : State) :
    (indexedTarget nnn s).toNat = nnn.toNat + (s.getV 0).toNat := by
  have h1 := nnn.isLt
  have h2 := (s.getV 0).isLt
  simp only [indexedTarget, zextAddr, zextByte, BitVec.toNat_add, BitVec.toNat_setWidth]
  omega

theorem fontAddress_toNat (b : Byte) : (fontAddress b).toNat = b.toNat * 5 := by
  have h := b.isLt
  simp only [fontAddress, zextByte, BitVec.toNat_mul, BitVec.toNat_setWidth]
  simp
  omega

/-! ### Results and flags -/

theorem sumByte_toNat (p q : Byte) : (sumByte p q).toNat = (p.toNat + q.toNat) % 256 := by
  simp [sumByte]

theorem diffByte_toNat (p q : Byte) : (diffByte p q).toNat = (256 + p.toNat - q.toNat) % 256 := by
  have h1 := p.isLt
  have h2 := q.isLt
  simp only [diffByte, BitVec.toNat_ofInt]
  omega

/-- A result written before its flag: `VF` ends as the flag, whatever the destination (R151). -/
theorem getV_writeResultFlag (s : State) (x r : Reg) (result flag : Byte) :
    (writeResultFlag s x result flag).getV r = if r = flagReg then flag else if r = x then result else s.getV r := by
  simp [writeResultFlag, State.getV_setV]

/-- The two writes of a shift touch `V` alone. -/
theorem writeShift_fields (s : State) (x : Reg) (shift : Byte → Byte) (flag : Byte) :
    writeShift s x shift flag = { s with v := (writeShift s x shift flag).v } := by
  unfold writeShift
  cases s.cfg.vfOrder <;> rfl

/-! ### The display -/

/-- XORing a pixel with 1 flips it and no other. -/
theorem pixel_flipPixel (d : Display) (p q : Nat) (hp : p < 2048) :
    pixel (flipPixel d p) q = (pixel d q ^^ decide (q = p)) := by
  have h : p / 64 < 32 := by omega
  unfold pixel flipPixel
  rw [dif_pos h]
  by_cases hq : q / 64 < 32
  · rw [Vector.getElem?_eq_getElem hq, Vector.getElem?_eq_getElem hq]
    simp only [Vector.getElem_set]
    by_cases hr : p / 64 = q / 64
    · have hm : p % 64 < 64 := Nat.mod_lt _ (by omega)
      simp only [hr, if_true, BitVec.getLsbD_xor, BitVec.getLsbD_twoPow]
      have : (decide (p % 64 < 64) && decide (p % 64 = q % 64)) = decide (q = p) := by
        rw [decide_eq_true hm, Bool.true_and, decide_eq_decide]
        omega
      rw [this]
    · rw [if_neg hr, decide_eq_false (by rintro rfl; exact hr rfl), Bool.xor_false]
  · rw [Vector.getElem?_eq_none (by omega), Vector.getElem?_eq_none (by omega),
      decide_eq_false (by rintro rfl; exact hq h)]
    rfl

/-- Every pixel of the blank display is 0. -/
theorem pixel_blankDisplay (p : Nat) : pixel blankDisplay p = false := by
  unfold pixel blankDisplay
  by_cases h : p / 64 < 32
  · rw [Vector.getElem?_eq_getElem h]
    simp
  · rw [Vector.getElem?_eq_none (by omega)]

/-- Pixels flipped once each: the ones in the list change, and a collision is one that was 1 before. -/
theorem blit_spec (ps : List Nat) (d : Display) (hit : Bool) (hlt : ∀ p ∈ ps, p < 2048) (hnd : ps.Nodup) :
    (∀ q, pixel (blit ps (d, hit)).1 q = (pixel d q ^^ decide (q ∈ ps))) ∧
      (blit ps (d, hit)).2 = (hit || ps.any (pixel d)) := by
  induction ps generalizing d hit with
  | nil => simp [blit]
  | cons p ps ih =>
    obtain ⟨hp, hnd⟩ := List.nodup_cons.1 hnd
    have hplt := hlt p (by simp)
    obtain ⟨h1, h2⟩ := ih (flipPixel d p) (hit || pixel d p) (fun q hq => hlt q (by simp [hq])) hnd
    constructor
    · intro q
      simp only [blit, h1, pixel_flipPixel d p q hplt, List.mem_cons]
      by_cases hq : q = p
      · subst hq; simp [hp]
      · simp [hq]
    · simp only [blit, h2, List.any_cons, Bool.or_assoc]
      congr 2
      rw [Bool.eq_iff_iff, List.any_eq_true, List.any_eq_true]
      refine exists_congr fun q => and_congr_right fun hq => ?_
      rw [pixel_flipPixel d p q hplt, decide_eq_false (by rintro rfl; exact hp hq), Bool.xor_false]

/-- The pixels of a row are those under its 1 bits. -/
theorem mem_rowPixels {w : DrawWrap} {cx py : Nat} {b : Byte} {p : Nat} :
    p ∈ rowPixels w cx py b ↔ ∃ c, c < 8 ∧ b.getLsbD (7 - c) = true ∧ p = pixelIndex w (cx + c) py := by
  simp only [rowPixels, List.mem_map, List.mem_filter, List.mem_range, spriteBit, and_assoc]
  exact exists_congr fun c => and_congr_right fun _ => and_congr_right fun _ => eq_comm

/-- The pixels of a sprite are those under its 1 bits. -/
theorem mem_spritePixels {w : DrawWrap} {cx cy : Nat} {rows : List Byte} {p : Nat} :
    p ∈ spritePixels w cx cy rows ↔ ∃ r c, ∃ h : r < rows.length, c < 8 ∧ rows[r].getLsbD (7 - c) = true ∧
      p = pixelIndex w (cx + c) (cy + r) := by
  induction rows generalizing cy with
  | nil => simp [spritePixels]
  | cons b rows ih =>
    simp only [spritePixels, List.mem_append, mem_rowPixels, ih]
    constructor
    · rintro (⟨c, hc, hb, rfl⟩ | ⟨r, c, hr, hc, hb, rfl⟩)
      · exact ⟨0, c, by simp, hc, by simpa using hb, rfl⟩
      · exact ⟨r + 1, c, by simpa using hr, hc, by simpa using hb, by rw [Nat.add_assoc, Nat.add_comm 1 r]⟩
    · rintro ⟨r, c, hr, hc, hb, rfl⟩
      cases r with
      | zero => exact .inl ⟨c, hc, by simpa using hb, rfl⟩
      | succ r =>
        exact .inr ⟨r, c, by simpa using hr, hc, by simpa using hb, by rw [Nat.add_assoc, Nat.add_comm 1 r]⟩

/-- Every pixel index lies on the screen (R202). -/
theorem pixelIndex_lt (w : DrawWrap) (px py : Nat) : pixelIndex w px py < 2048 := by
  cases w <;> simp only [pixelIndex] <;> omega

end Sys2Proof.Machine
end

