-- ==== Sys2Proof/Laws/PerInstr.lean ====
section
/-! SUPPORT. Per instruction: the encoder's word carries the fixed bits of its row of spec/opcode_table.json. -/

namespace Sys2Proof.Laws.TableRow

/-- The column `fixed` of the row: the bits `hi`..`lo` hold `value`. -/
def fixedBits : Instr → List (Nat × Nat × Nat)
  | .cls => [(15, 0, 0xe0)]
  | .ret => [(15, 0, 0xee)]
  | .sys _ => [(15, 12, 0x0)]
  | .jp _ => [(15, 12, 0x1)]
  | .call _ => [(15, 12, 0x2)]
  | .seImm _ _ => [(15, 12, 0x3)]
  | .sneImm _ _ => [(15, 12, 0x4)]
  | .seReg _ _ => [(3, 0, 0x0), (15, 12, 0x5)]
  | .ldImm _ _ => [(15, 12, 0x6)]
  | .addImm _ _ => [(15, 12, 0x7)]
  | .ldReg _ _ => [(3, 0, 0x0), (15, 12, 0x8)]
  | .orReg _ _ => [(3, 0, 0x1), (15, 12, 0x8)]
  | .andReg _ _ => [(3, 0, 0x2), (15, 12, 0x8)]
  | .xorReg _ _ => [(3, 0, 0x3), (15, 12, 0x8)]
  | .addReg _ _ => [(3, 0, 0x4), (15, 12, 0x8)]
  | .sub _ _ => [(3, 0, 0x5), (15, 12, 0x8)]
  | .shr _ _ => [(3, 0, 0x6), (15, 12, 0x8)]
  | .subn _ _ => [(3, 0, 0x7), (15, 12, 0x8)]
  | .shl _ _ => [(3, 0, 0xe), (15, 12, 0x8)]
  | .sneReg _ _ => [(3, 0, 0x0), (15, 12, 0x9)]
  | .ldI _ => [(15, 12, 0xa)]
  | .jpV0 _ => [(15, 12, 0xb)]
  | .rnd _ _ => [(15, 12, 0xc)]
  | .drw _ _ _ => [(15, 12, 0xd)]
  | .skp _ => [(7, 0, 0x9e), (15, 12, 0xe)]
  | .sknp _ => [(7, 0, 0xa1), (15, 12, 0xe)]
  | .ldVxDt _ => [(7, 0, 0x7), (15, 12, 0xf)]
  | .ldVxK _ => [(7, 0, 0xa), (15, 12, 0xf)]
  | .ldDtVx _ => [(7, 0, 0x15), (15, 12, 0xf)]
  | .ldStVx _ => [(7, 0, 0x18), (15, 12, 0xf)]
  | .addIVx _ => [(7, 0, 0x1e), (15, 12, 0xf)]
  | .ldFVx _ => [(7, 0, 0x29), (15, 12, 0xf)]
  | .ldBVx _ => [(7, 0, 0x33), (15, 12, 0xf)]
  | .ldMemVx _ => [(7, 0, 0x55), (15, 12, 0xf)]
  | .ldVxMem _ => [(7, 0, 0x65), (15, 12, 0xf)]

/-- Every fixed bit range of the row reads as the row says in the encoder's word. -/
def Statement (i : Instr) : Prop :=
  ∀ f ∈ fixedBits i, (encode i).toNat / 2 ^ f.2.1 % 2 ^ (f.1 - f.2.1 + 1) = f.2.2

theorem cls : Statement (.cls) := by
  unfold Statement
  decide

theorem ret : Statement (.ret) := by
  unfold Statement
  decide

theorem sys (nnn : Addr) : Statement (.sys nnn) := by
  have := nnn.isLt
  simp [Statement, fixedBits, encode, encodeNnn_toNat]; omega

theorem jp (nnn : Addr) : Statement (.jp nnn) := by
  have := nnn.isLt
  simp [Statement, fixedBits, encode, encodeNnn_toNat]; omega

theorem call (nnn : Addr) : Statement (.call nnn) := by
  have := nnn.isLt
  simp [Statement, fixedBits, encode, encodeNnn_toNat]; omega

theorem seImm (x : Reg) (kk : Byte) : Statement (.seImm x kk) := by
  have := x.isLt; have := kk.isLt
  simp [Statement, fixedBits, encode, encodeXkk_toNat]; omega

theorem sneImm (x : Reg) (kk : Byte) : Statement (.sneImm x kk) := by
  have := x.isLt; have := kk.isLt
  simp [Statement, fixedBits, encode, encodeXkk_toNat]; omega

theorem seReg (x y : Reg) : Statement (.seReg x y) := by
  have := x.isLt; have := y.isLt
  simp [Statement, fixedBits, encode, encodeXyn_toNat]; omega

theorem ldImm (x : Reg) (kk : Byte) : Statement (.ldImm x kk) := by
  have := x.isLt; have := kk.isLt
  simp [Statement, fixedBits, encode, encodeXkk_toNat]; omega

theorem addImm (x : Reg) (kk : Byte) : Statement (.addImm x kk) := by
  have := x.isLt; have := kk.isLt
  simp [Statement, fixedBits, encode, encodeXkk_toNat]; omega

theorem ldReg (x y : Reg) : Statement (.ldReg x y) := by
  have := x.isLt; have := y.isLt
  simp [Statement, fixedBits, encode, encodeXyn_toNat]; omega

theorem orReg (x y : Reg) : Statement (.orReg x y) := by
  have := x.isLt; have := y.isLt
  simp [Statement, fixedBits, encode, encodeXyn_toNat]; omega

theorem andReg (x y : Reg) : Statement (.andReg x y) := by
  have := x.isLt; have := y.isLt
  simp [Statement, fixedBits, encode, encodeXyn_toNat]; omega

theorem xorReg (x y : Reg) : Statement (.xorReg x y) := by
  have := x.isLt; have := y.isLt
  simp [Statement, fixedBits, encode, encodeXyn_toNat]; omega

theorem addReg (x y : Reg) : Statement (.addReg x y) := by
  have := x.isLt; have := y.isLt
  simp [Statement, fixedBits, encode, encodeXyn_toNat]; omega

theorem sub (x y : Reg) : Statement (.sub x y) := by
  have := x.isLt; have := y.isLt
  simp [Statement, fixedBits, encode, encodeXyn_toNat]; omega

theorem shr (x y : Reg) : Statement (.shr x y) := by
  have := x.isLt; have := y.isLt
  simp [Statement, fixedBits, encode, encodeXyn_toNat]; omega

theorem subn (x y : Reg) : Statement (.subn x y) := by
  have := x.isLt; have := y.isLt
  simp [Statement, fixedBits, encode, encodeXyn_toNat]; omega

theorem shl (x y : Reg) : Statement (.shl x y) := by
  have := x.isLt; have := y.isLt
  simp [Statement, fixedBits, encode, encodeXyn_toNat]; omega

theorem sneReg (x y : Reg) : Statement (.sneReg x y) := by
  have := x.isLt; have := y.isLt
  simp [Statement, fixedBits, encode, encodeXyn_toNat]; omega

theorem ldI (nnn : Addr) : Statement (.ldI nnn) := by
  have := nnn.isLt
  simp [Statement, fixedBits, encode, encodeNnn_toNat]; omega

theorem jpV0 (nnn : Addr) : Statement (.jpV0 nnn) := by
  have := nnn.isLt
  simp [Statement, fixedBits, encode, encodeNnn_toNat]; omega

theorem rnd (x : Reg) (kk : Byte) : Statement (.rnd x kk) := by
  have := x.isLt; have := kk.isLt
  simp [Statement, fixedBits, encode, encodeXkk_toNat]; omega

theorem drw (x y : Reg) (n : Nibble) : Statement (.drw x y n) := by
  have := x.isLt; have := y.isLt; have := n.isLt
  simp [Statement, fixedBits, encode, encodeXyn_toNat]; omega

theorem skp (x : Reg) : Statement (.skp x) := by
  have := x.isLt
  simp [Statement, fixedBits, encode, encodeXkk_toNat]; omega

theorem sknp (x : Reg) : Statement (.sknp x) := by
  have := x.isLt
  simp [Statement, fixedBits, encode, encodeXkk_toNat]; omega

theorem ldVxDt (x : Reg) : Statement (.ldVxDt x) := by
  have := x.isLt
  simp [Statement, fixedBits, encode, encodeXkk_toNat]; omega

theorem ldVxK (x : Reg) : Statement (.ldVxK x) := by
  have := x.isLt
  simp [Statement, fixedBits, encode, encodeXkk_toNat]; omega

theorem ldDtVx (x : Reg) : Statement (.ldDtVx x) := by
  have := x.isLt
  simp [Statement, fixedBits, encode, encodeXkk_toNat]; omega

theorem ldStVx (x : Reg) : Statement (.ldStVx x) := by
  have := x.isLt
  simp [Statement, fixedBits, encode, encodeXkk_toNat]; omega

theorem addIVx (x : Reg) : Statement (.addIVx x) := by
  have := x.isLt
  simp [Statement, fixedBits, encode, encodeXkk_toNat]; omega

theorem ldFVx (x : Reg) : Statement (.ldFVx x) := by
  have := x.isLt
  simp [Statement, fixedBits, encode, encodeXkk_toNat]; omega

theorem ldBVx (x : Reg) : Statement (.ldBVx x) := by
  have := x.isLt
  simp [Statement, fixedBits, encode, encodeXkk_toNat]; omega

theorem ldMemVx (x : Reg) : Statement (.ldMemVx x) := by
  have := x.isLt
  simp [Statement, fixedBits, encode, encodeXkk_toNat]; omega

theorem ldVxMem (x : Reg) : Statement (.ldVxMem x) := by
  have := x.isLt
  simp [Statement, fixedBits, encode, encodeXkk_toNat]; omega

end Sys2Proof.Laws.TableRow
end

