-- ==== Sys2Proof/Laws/Step.lean ====
section
/-! SUPPORT. What an instruction and a step can do, said once. -/

namespace Sys2Proof.Machine

/-- The mode a completed push leaves. -/
theorem push_mode {s t : State} {w : Word} (h : push s w = .ok t) : t.mode = s.mode := by
  obtain ⟨-, rfl⟩ := push_ok h
  rfl

/-- An instruction's outcome: a fault taken, with a cause that is neither the load's nor the fetch's; the wait of Fx0A; or
an effect that leaves the mode. -/
theorem exec_cases (i : Instr) (s : State) :
    ∃ t, exec i s = .next t ∧
      ((∃ f : Trap, t = takeFault s f (some (encode i)) ∧ f.cause ≠ .loadError ∧ f.cause ≠ .fetchBounds ∧
          (f.cause = .decodeError → s.cfg.sysPolicy = .fault ∧ ∃ nnn, i = .sys nnn)) ∨
        (∃ x, i = .ldVxK x ∧ t = (advance s).setMode (.awaitKey x)) ∨
        t.mode = s.mode) := by
  have stores : ∀ (j : Instr) (bs : List Byte),
      ∃ t, conclude s j (memWriteBytes (advance s) (indexAddress s) bs) = .next t ∧
        ((∃ f : Trap, t = takeFault s f (some (encode j)) ∧ f.cause ≠ .loadError ∧ f.cause ≠ .fetchBounds ∧
          f.cause ≠ .decodeError) ∨ t.mode = s.mode) := by
    intro j bs
    generalize indexAddress s = a
    have key : ∀ (u : State) (a : Nat), (∃ f : Trap, memWriteBytes u a bs = .error f ∧ f.cause ≠ .loadError ∧
        f.cause ≠ .fetchBounds ∧ f.cause ≠ .decodeError) ∨ ∃ t, memWriteBytes u a bs = .ok t := by
      induction bs with
      | nil => exact fun u a => .inr ⟨u, rfl⟩
      | cons b bs ih =>
        intro u a
        simp only [memWriteBytes]
        rcases memWrite_cases u a b with ⟨-, h⟩ | ⟨-, -, h⟩ | ⟨-, -, h⟩
        · exact .inl ⟨_, by rw [h], by simp, by simp, by simp⟩
        · exact .inl ⟨_, by rw [h], by simp, by simp, by simp⟩
        · simp only [h]; exact ih _ _
    rcases key (advance s) a with ⟨f, hf, h1, h2, h3⟩ | ⟨t, ht⟩
    · rw [hf]; exact ⟨_, rfl, .inl ⟨f, rfl, h1, h2, h3⟩⟩
    · rw [ht]; exact ⟨t, rfl, .inr (by rw [memWriteBytes_fields ht]; rfl)⟩
  have reads : ∀ n, (∃ f : Trap, memReadBytes (advance s) (indexAddress s) n = .error f ∧ f.cause = .memBounds) ∨
      ∃ bs, memReadBytes (advance s) (indexAddress s) n = .ok bs := by
    intro n
    by_cases hn : n = 0
    · exact .inr ⟨_, memReadBytes_ok (.inr hn)⟩
    · by_cases ha : indexAddress s + n ≤ 0x1000
      · exact .inr ⟨_, memReadBytes_ok (.inl ha)⟩
      · exact .inl ⟨_, memReadBytes_bounds (by omega) hn, rfl⟩
  cases i with
  | ret =>
    simp only [exec, execRet]
    cases h : pop (advance s) with
    | error f =>
      refine ⟨_, rfl, .inl ⟨f, rfl, ?_⟩⟩
      unfold pop at h
      split at h <;> cases h
      simp
    | ok p =>
      obtain ⟨_, _, _, hp⟩ := pop_ok (w := p.1) (t := p.2) h
      exact ⟨_, rfl, .inr (.inr (show p.2.mode = s.mode by rw [hp]; rfl))⟩
  | sys nnn =>
    simp only [exec, execSys]
    cases h : s.cfg.sysPolicy with
    | fault => exact ⟨_, rfl, .inl ⟨_, rfl, by simp⟩⟩
    | nop => exact ⟨_, rfl, .inr (.inr rfl)⟩
  | call nnn =>
    simp only [exec, execCall]
    cases h : push (advance s) (advance s).pc with
    | error f =>
      refine ⟨_, rfl, .inl ⟨f, rfl, ?_⟩⟩
      unfold push at h
      split at h <;> cases h
      simp
    | ok t => exact ⟨_, rfl, .inr (.inr (show t.mode = (advance s).mode from push_mode h))⟩
  | skp x =>
    simp only [exec, execSkp]
    cases h : keyOperand s x with
    | error f =>
      refine ⟨_, rfl, .inl ⟨f, rfl, ?_⟩⟩
      unfold keyOperand at h
      split at h <;> cases h
      simp
    | ok k => exact ⟨_, rfl, .inr (.inr (by rw [skipIf_eq]; rfl))⟩
  | sknp x =>
    simp only [exec, execSknp]
    cases h : keyOperand s x with
    | error f =>
      refine ⟨_, rfl, .inl ⟨f, rfl, ?_⟩⟩
      unfold keyOperand at h
      split at h <;> cases h
      simp
    | ok k => exact ⟨_, rfl, .inr (.inr (by rw [skipIf_eq]; rfl))⟩
  | ldVxK x =>
    simp only [exec, execLdVxK]
    cases h : s.cfg.waitPolicy with
    | await => exact ⟨_, rfl, .inr (.inl ⟨x, rfl, rfl⟩)⟩
    | fault => exact ⟨_, rfl, .inl ⟨_, rfl, by simp⟩⟩
  | addIVx x =>
    simp only [exec, execAddIVx]
    split
    · exact ⟨_, rfl, .inl ⟨_, rfl, by simp⟩⟩
    · exact ⟨_, rfl, .inr (.inr rfl)⟩
  | ldBVx x =>
    obtain ⟨t, ht, h⟩ := stores (.ldBVx x) (bcdDigits (s.getV x))
    exact ⟨t, ht, h.imp (fun ⟨f, h1, h2, h3, h4⟩ => ⟨f, h1, h2, h3, fun h => absurd h h4⟩) .inr⟩
  | ldMemVx x =>
    obtain ⟨t, ht, h⟩ := stores (.ldMemVx x) (dumpBytes s x)
    exact ⟨t, ht, h.imp (fun ⟨f, h1, h2, h3, h4⟩ => ⟨f, h1, h2, h3, fun h => absurd h h4⟩) .inr⟩
  | ldVxMem x =>
    simp only [exec, execLdVxMem]
    rcases reads (x.val + 1) with ⟨f, hf, hc⟩ | ⟨bs, hb⟩
    · rw [hf]; exact ⟨_, rfl, .inl ⟨f, rfl, by simp [hc]⟩⟩
    · rw [hb]; exact ⟨_, rfl, .inr (.inr rfl)⟩
  | drw x y n =>
    simp only [exec, execDrw]
    rcases reads n.toNat with ⟨f, hf, hc⟩ | ⟨bs, hb⟩
    · rw [hf]; exact ⟨_, rfl, .inl ⟨f, rfl, by simp [hc]⟩⟩
    · rw [hb]; exact ⟨_, rfl, .inr (.inr rfl)⟩
  | shr x y => exact ⟨_, rfl, .inr (.inr (by rw [writeShift_fields]; rfl))⟩
  | shl x y => exact ⟨_, rfl, .inr (.inr (by rw [writeShift_fields]; rfl))⟩
  | seImm x kk => exact ⟨_, rfl, .inr (.inr (by rw [skipIf_eq]; rfl))⟩
  | sneImm x kk => exact ⟨_, rfl, .inr (.inr (by rw [skipIf_eq]; rfl))⟩
  | seReg x y => exact ⟨_, rfl, .inr (.inr (by rw [skipIf_eq]; rfl))⟩
  | sneReg x y => exact ⟨_, rfl, .inr (.inr (by rw [skipIf_eq]; rfl))⟩
  | cls | jp _ | ldImm _ _ | addImm _ _ | ldReg _ _ | orReg _ _ | andReg _ _ | xorReg _ _ | addReg _ _ | sub _ _
  | subn _ _ | ldI _ | jpV0 _ | rnd _ _ | ldVxDt _ | ldDtVx _ | ldStVx _ | ldFVx _ =>
    exact ⟨_, rfl, .inr (.inr rfl)⟩

/-- Every instruction answers a next state. -/
theorem exec_answers (i : Instr) (s : State) : ∃ t, exec i s = .next t :=
  (exec_cases i s).imp fun _ h => h.1

/-- What a step can do (60_exceptions.md R250). -/
theorem step_cases {s t : State} (h : step s = .next t) :
    ((s.mode = .stopped ∨ ∃ info, s.mode = .faulted info) ∧ t = s) ∨
    ((∃ x, s.mode = .awaitKey x) ∧ t = awaitStep s) ∨
    (s.mode = .running ∧ 0xFFE < s.pc.toNat ∧ t = takeFault s ⟨.fetchBounds, .nothing⟩ none) ∨
    (s.mode = .running ∧ s.pc.toNat ≤ 0xFFE ∧ ∃ op, fetch s s.pc = .ok op ∧
      ((∃ r, decode op = .error r ∧ t = takeFault s ⟨.decodeError, .nothing⟩ (some op)) ∨
        ∃ i u, decode op = .ok i ∧ exec i s = .next u ∧ t = endStep u)) := by
  unfold step at h
  cases hm : s.mode with
  | stopped => rw [hm] at h; exact .inl ⟨.inl rfl, by simpa [eq_comm] using h⟩
  | faulted info => rw [hm] at h; exact .inl ⟨.inr ⟨info, rfl⟩, by simpa [eq_comm] using h⟩
  | awaitKey x => rw [hm] at h; exact .inr (.inl ⟨⟨x, rfl⟩, by simpa [eq_comm] using h⟩)
  | running =>
    rw [hm] at h
    simp only at h
    by_cases hpc : s.pc.toNat ≤ 0xFFE
    · rw [fetch_of_le hpc] at h ⊢
      refine .inr (.inr (.inr ⟨rfl, hpc, _, rfl, ?_⟩))
      simp only at h
      cases hd : decode (wordOfBytes (s.byteAt s.pc.toNat) (s.byteAt (s.pc.toNat + 1))) with
      | error r => rw [hd] at h; exact .inl ⟨r, rfl, by simpa [eq_comm] using h⟩
      | ok i =>
        rw [hd] at h
        obtain ⟨u, hu⟩ := exec_answers i s
        simp only [hu] at h
        exact .inr ⟨i, u, rfl, hu, by simpa [eq_comm] using h⟩
    · rw [fetch_of_gt (by omega)] at h
      exact .inr (.inr (.inl ⟨rfl, by omega, by simpa [eq_comm] using h⟩))

/-- Every step answers a next state: this machine stops by its mode, never by an outcome. -/
theorem step_answers (s : State) : ∃ t, step s = .next t := by
  unfold step
  cases s.mode with
  | stopped => exact ⟨_, rfl⟩
  | faulted info => exact ⟨_, rfl⟩
  | awaitKey x => exact ⟨_, rfl⟩
  | running =>
    simp only
    cases fetch s s.pc with
    | error f => exact ⟨_, rfl⟩
    | ok op =>
      simp only
      cases decode op with
      | error r => exact ⟨_, rfl⟩
      | ok i =>
        obtain ⟨u, hu⟩ := exec_answers i s
        simp only [hu]
        exact ⟨_, rfl⟩

end Sys2Proof.Machine
end

