-- ==== Sys2Proof/Tests/Slice0.lean ====
section
/-! SUPPORT. The model's own tests: decoding by words written out from the spec's encoding table, single steps with results
from 95_test_vectors.md, and a state that meets the hypotheses of each statement. -/

open Sys2Proof Sys2Proof.Machine

namespace Sys2Proof.Tests

/-! ### Helpers -/

/-- The state of a next outcome. -/
def nextOf (o : Host.Outcome State Fault Refusal) : State :=
  match o with
  | .next t => t
  | .fault _ => State.reset
  | .refused _ => State.reset

/-- `s` with the instruction word `w` at its `PC`. -/
def put (w : Nat) (s : State) : State := s.withFetchWord 16 w

/-- One step with the instruction word `w` at `PC`. -/
def run (w : Nat) (s : State) : State := nextOf (step (put w s))

/-- The reset state with the given parameters. -/
def withCfg (f : Config → Config) : State := { State.reset with cfg := f defaultConfig }

/-- The fault record, if there is one. -/
def recordOf (s : State) : Option FaultInfo :=
  match s.mode with
  | .faulted info => some info
  | .running | .awaitKey _ | .stopped => none

/-- `k` bytes of memory from address `a`. -/
def bytesAt (s : State) (a k : Nat) : List Byte := (List.range k).map fun j => s.byteAt (a + j)

/-! ### WellFormed: an ill-formed term for each check -/

theorem test_sys_00E0_ill_formed : (Instr.sys 0x0E0).wellFormed = false := by decide
theorem test_sys_00EE_ill_formed : (Instr.sys 0x0EE).wellFormed = false := by decide
theorem test_sys_0000_well_formed : (Instr.sys 0x000).wellFormed = true := by decide

/-! ### Decoding: each constructor's word, bit by bit from 30_encoding.md R91, R94, R100 -/

theorem test_decode_group0 :
    decode 0b0000000011100000 = .ok .cls ∧ decode 0b0000000011101110 = .ok .ret
    ∧ decode 0b0000000100100011 = .ok (.sys 0x123) := by decide
theorem test_decode_jumps :
    decode 0b0001001000110100 = .ok (.jp 0x234) ∧ decode 0b0010001100000001 = .ok (.call 0x301)
    ∧ decode 0b1011111110000000 = .ok (.jpV0 0xF80) := by decide
theorem test_decode_skips :
    decode 0b0011001101000010 = .ok (.seImm 3 0x42) ∧ decode 0b0100001101000010 = .ok (.sneImm 3 0x42)
    ∧ decode 0b0101000100100000 = .ok (.seReg 1 2) ∧ decode 0b1001000100100000 = .ok (.sneReg 1 2) := by decide
theorem test_decode_immediates :
    decode 0b0110000000000101 = .ok (.ldImm 0 0x05) ∧ decode 0b0111001000100000 = .ok (.addImm 2 0x20)
    ∧ decode 0b1100001100001111 = .ok (.rnd 3 0x0F) := by decide
theorem test_decode_group8_low :
    decode 0b1000000101010000 = .ok (.ldReg 1 5) ∧ decode 0b1000000100100001 = .ok (.orReg 1 2)
    ∧ decode 0b1000000100100010 = .ok (.andReg 1 2) ∧ decode 0b1000000100100011 = .ok (.xorReg 1 2) := by decide
theorem test_decode_group8_high :
    decode 0b1000000000010100 = .ok (.addReg 0 1) ∧ decode 0b1000000100100101 = .ok (.sub 1 2)
    ∧ decode 0b1000001101000110 = .ok (.shr 3 4) ∧ decode 0b1000000100100111 = .ok (.subn 1 2)
    ∧ decode 0b1000001101001110 = .ok (.shl 3 4) := by decide
theorem test_decode_index_and_draw :
    decode 0b1010001000000000 = .ok (.ldI 0x200) ∧ decode 0b1101000000010101 = .ok (.drw 0 1 5) := by decide
theorem test_decode_keys :
    decode 0b1110001010011110 = .ok (.skp 2) ∧ decode 0b1110001010100001 = .ok (.sknp 2) := by decide
theorem test_decode_timers :
    decode 0b1111001100000111 = .ok (.ldVxDt 3) ∧ decode 0b1111010100001010 = .ok (.ldVxK 5)
    ∧ decode 0b1111000000010101 = .ok (.ldDtVx 0) ∧ decode 0b1111000100011000 = .ok (.ldStVx 1) := by decide
theorem test_decode_index_memory :
    decode 0b1111001000011110 = .ok (.addIVx 2) ∧ decode 0b1111010000101001 = .ok (.ldFVx 4)
    ∧ decode 0b1111000100110011 = .ok (.ldBVx 1) ∧ decode 0b1111001001010101 = .ok (.ldMemVx 2)
    ∧ decode 0b1111001001100101 = .ok (.ldVxMem 2) := by decide
/-- V12, V16, A40, T13: words of R97. -/
theorem test_decode_rejects :
    [0x5121, 0x912F, 0x8008, 0x800D, 0x800F, 0xE200, 0xE29F, 0xF000, 0xF0FF].all
      (fun w => decode w == .error (.unrecognized w)) = true := by decide
theorem test_decodeBytes_high_byte_first : decodeBytes [0xA2, 0x00, 0x60] = .ok (.ldI 0x200, [0x60]) := by decide
theorem test_decodeBytes_truncated : decodeBytes [0xA2] = .error .truncated := by decide
theorem test_decodeTableWord : decodeTableWord 16 0x8014 = some (.addReg 0 1) := by decide
theorem test_encode_source_words :
    encode (.ldI 0x200) = 0xA200 ∧ encode (.ldImm 1 0x0A) = 0x610A ∧ encode (.addReg 0 1) = 0x8014 := by decide

/-! ### Control transfer (95_test_vectors.md section 2.1) -/

theorem test_jp_V1 : (run 0x1234 State.reset).pc = 0x234 := by decide
theorem test_call_V3 : let t := run 0x2300 State.reset
    t.stack[0] = 0x202 ∧ t.sp = 1 ∧ t.pc = 0x300 := by decide
theorem test_call_V6 : let s := { State.reset with sp := 16 }
    recordOf (run 0x2300 s) = some ⟨.stackOverflow, 0x200, some 0x2300, .nothing⟩ ∧ (run 0x2300 s).sp = 16
    ∧ (run 0x2300 s).pc = 0x200 := by decide
theorem test_ret_V4 : let t := run 0x00EE { (State.reset.setStack 0 0x202) with sp := 1, pc := 0x300 }
    t.sp = 0 ∧ t.pc = 0x202 ∧ t.stack[0] = 0x202 := by decide
theorem test_ret_V5 :
    recordOf (run 0x00EE State.reset) = some ⟨.stackUnderflow, 0x200, some 0x00EE, .nothing⟩ := by decide
theorem test_seImm_V7_V8 :
    (run 0x3342 (State.reset.setV 3 0x42)).pc = 0x204 ∧ (run 0x3342 (State.reset.setV 3 0x41)).pc = 0x202 := by decide
theorem test_sneImm_V9_V10 :
    (run 0x4342 (State.reset.setV 3 0x41)).pc = 0x204 ∧ (run 0x4342 (State.reset.setV 3 0x42)).pc = 0x202 := by decide
theorem test_seReg_V11 : (run 0x5120 ((State.reset.setV 1 7).setV 2 7)).pc = 0x204 := by decide
theorem test_sneReg_V14_V15 :
    (run 0x9120 ((State.reset.setV 1 7).setV 2 8)).pc = 0x204 ∧ (run 0x9550 State.reset).pc = 0x202 := by decide
theorem test_jpV0_V18 : (run 0xBF80 (State.reset.setV 0 0xFF)).pc = 0x107F := by decide
theorem test_sys_V20 :
    recordOf (run 0x0123 State.reset) = some ⟨.decodeError, 0x200, some 0x0123, .nothing⟩ := by decide
theorem test_sys_V21 : (run 0x0123 (withCfg fun c => { c with sysPolicy := .nop })).pc = 0x202 := by decide

/-! ### Loads and arithmetic (section 2.2) -/

theorem test_ldImm_A1 : (run 0x6005 State.reset).getV 0 = 0x05 := by decide
theorem test_addImm_A3 : let t := run 0x7201 ((State.reset.setV 2 0xFF).setV 15 7)
    t.getV 2 = 0 ∧ t.getV 15 = 7 := by decide
theorem test_ldReg_A5 : (run 0x8150 (State.reset.setV 5 0x33)).getV 1 = 0x33 := by decide
theorem test_orReg_A6 : let t := run 0x8121 (((State.reset.setV 1 0x0F).setV 2 0xF0).setV 15 5)
    t.getV 1 = 0xFF ∧ t.getV 15 = 5 := by decide
theorem test_andReg_A7 : (run 0x8122 ((State.reset.setV 1 0x3C).setV 2 0x0F)).getV 1 = 0x0C := by decide
theorem test_xorReg_A8 : (run 0x8123 ((State.reset.setV 1 0x3C).setV 2 0x0F)).getV 1 = 0x33 := by decide
theorem test_addReg_A11 : let t := run 0x8014 ((State.reset.setV 0 0xFF).setV 1 1)
    t.getV 0 = 0 ∧ t.getV 15 = 1 := by decide
theorem test_addReg_A15_A16 : (run 0x8F14 ((State.reset.setV 15 0x90).setV 1 0x80)).getV 15 = 1
    ∧ (run 0x80F4 ((State.reset.setV 0 0x10).setV 15 0xFF)).getV 0 = 0x0F := by decide
theorem test_sub_A18_A19 : (run 0x8125 ((State.reset.setV 1 5).setV 2 5)).getV 15 = 1
    ∧ (run 0x8125 ((State.reset.setV 1 0).setV 2 1)).getV 1 = 0xFF
    ∧ (run 0x8125 ((State.reset.setV 1 0).setV 2 1)).getV 15 = 0 := by decide
theorem test_subn_A28 : let t := run 0x8127 ((State.reset.setV 1 2).setV 2 1)
    t.getV 1 = 0xFF ∧ t.getV 15 = 0 := by decide
theorem test_shr_A21_A22 : (run 0x8306 (State.reset.setV 3 5)).getV 3 = 2 ∧ (run 0x8306 (State.reset.setV 3 5)).getV 15 = 1
    ∧ (run 0x8346 (State.reset.setV 3 1)).getV 15 = 1 := by decide
theorem test_shr_A24_A25_A26 : (run 0x8F06 (State.reset.setV 15 5)).getV 15 = 0
    ∧ (run 0x8F06 ((withCfg fun c => { c with vfOrder := .resultLast }).setV 15 5)).getV 15 = 2
    ∧ (run 0x8F06 ((withCfg fun c => { c with vfOrder := .flagLast }).setV 15 5)).getV 15 = 1 := by decide
theorem test_shl_A30_A31 : (run 0x830E (State.reset.setV 3 0x81)).getV 3 = 2
    ∧ (run 0x830E (State.reset.setV 3 0x81)).getV 15 = 1 ∧ (run 0x830E (State.reset.setV 3 0x7F)).getV 15 = 0 := by decide
theorem test_shl_A34_A35_A36 : (run 0x8F0E (State.reset.setV 15 1)).getV 15 = 0
    ∧ (run 0x8F0E ((withCfg fun c => { c with vfOrder := .resultLast }).setV 15 1)).getV 15 = 2
    ∧ (run 0x8F0E ((withCfg fun c => { c with vfOrder := .flagLast }).setV 15 0x81)).getV 15 = 1 := by decide
/-- A37: whatever was drawn, if it was 0xA7. -/
theorem test_rnd_A37 (s : State) (h : Config.randomByte s.draws = 0xA7) :
    (nextOf (exec (.rnd 3 0x0F) s)).getV 3 = 0x07 := by
  simp [exec, execRnd, nextOf, rand, advance, h]
/-- A38: any draw. -/
theorem test_rnd_A38 (s : State) : (nextOf (exec (.rnd 3 0x00) s)).getV 3 = 0 := by
  simp [exec, execRnd, nextOf, rand, advance]

/-! ### Index and memory (section 2.3) -/

theorem test_ldI_M1 : (run 0xA200 State.reset).i = 0x200 := by decide
theorem test_addIVx_M2 : (run 0xF21E ((State.reset.setI 0x0FFE).setV 2 5)).i = 0x1003 := by decide
theorem test_addIVx_M3 : let t := run 0xF21E ((State.reset.setI 0xFFF0).setV 2 0x10)
    recordOf t = some ⟨.indexOverflow, 0x200, some 0xF21E, .sum 0x10000⟩ ∧ t.i = 0xFFF0 := by decide
theorem test_ldFVx_M5_M6 : (run 0xF429 (State.reset.setV 4 0x0A)).i = 0x032
    ∧ (run 0xF429 (State.reset.setV 4 0xFF)).i = 0x4FB := by decide
theorem test_ldBVx_M7 : let t := run 0xF133 ((State.reset.setI 0x300).setV 1 123)
    bytesAt t 0x300 3 = [1, 2, 3] ∧ t.i = 0x300 := by decide
theorem test_ldBVx_M11_M12 :
    recordOf (run 0xF033 ((State.reset.setI 0xFFE).setV 0 9)) = some ⟨.memBounds, 0x200, some 0xF033, .address 0x1000⟩
    ∧ bytesAt (run 0xF033 ((State.reset.setI 0xFFE).setV 0 9)) 0xFFE 2 = [0, 0]
    ∧ recordOf (run 0xF033 (State.reset.setI 0x1FF)) = some ⟨.reservedWrite, 0x200, some 0xF033, .address 0x1FF⟩ := by
  decide
/-- M14, and M13's `P_RESERVED_WRITE = ALLOW` over the font. -/
theorem test_ldMemVx_M14_allow : let v (s : State) := ((s.setV 0 0x11).setV 1 0x22).setV 2 0x33
    bytesAt (run 0xF255 (v (State.reset.setI 0x400))) 0x400 4 = [0x11, 0x22, 0x33, 0]
    ∧ bytesAt (run 0xF255 (v (withCfg fun c => { c with reservedWrite := .allow }))) 0 4 = [0x11, 0x22, 0x33, 0x90] := by
  decide
theorem test_ldMemVx_M16 :
    recordOf (run 0xFF55 (State.reset.setI 0xFF8)) = some ⟨.memBounds, 0x200, some 0xFF55, .address 0x1000⟩ := by decide
theorem test_ldVxMem_M18 : (run 0xF465 State.reset).v.toList.take 6 = [0xF0, 0x90, 0x90, 0x90, 0xF0, 0] := by decide
theorem test_ldVxMem_M20 :
    recordOf (run 0xFF65 (State.reset.setI 0xFF1)) = some ⟨.memBounds, 0x200, some 0xFF65, .address 0x1000⟩ := by decide

/-! ### Display (section 2.4); bit x of row y is pixel (x, y) -/

theorem test_cls_D1 : let t := run 0x00E0 (State.reset.setDisp (flipPixel blankDisplay 70))
    t.disp = blankDisplay ∧ t.dirty = true := by decide
/-- D2: glyph 0 at the origin, and D3: drawn again, it clears its pixels and collides. -/
theorem test_drw_D2_D3 : let t := run 0xD015 State.reset
    t.disp.toList = [0xF, 0x9, 0x9, 0x9, 0xF] ++ List.replicate 27 0 ∧ t.getV 15 = 0 ∧ t.dirty = true
    ∧ (run 0xD015 t).disp = blankDisplay ∧ (run 0xD015 t).getV 15 = 1 := by decide
/-- D16, D17: the bleed over the right edge and the bottom under each wrap. -/
theorem test_drw_D16_D17 : let s (c : State) := (c.setV 0 62).setV 1 30
    (run 0xD015 (s State.reset)).disp.toList =
      [0x4000000000000002, 0x4000000000000002, 0xC000000000000002, 0x3] ++ List.replicate 26 0
        ++ [0xC000000000000000, 0x4000000000000003]
    ∧ (run 0xD015 (s (withCfg fun c => { c with drawWrap := .perAxis }))).disp.toList =
      [0x4000000000000002, 0x4000000000000002, 0xC000000000000003] ++ List.replicate 27 0
        ++ [0xC000000000000003, 0x4000000000000002] := by decide
/-- D10, D11: a 1 bit on a set pixel collides, a 0 bit does not; the sprite byte at 0x300 is 0x80. -/
theorem test_drw_D10_D11 : let s (p : Nat) := (((State.reset.putByte 0x300 0x80).setI 0x300).setDisp (flipPixel blankDisplay p))
    (run 0xD001 (s 0)).getV 15 = 1 ∧ (run 0xD001 (s 0)).disp = blankDisplay
    ∧ (run 0xD001 (s 1)).getV 15 = 0 ∧ pixel (run 0xD001 (s 1)).disp 1 = true := by decide
/-- D12, and D14, D15: the latch when x = F. -/
theorem test_drw_D12_D14_D15 :
    recordOf (run 0xD015 (State.reset.setI 0xFFC)) = some ⟨.memBounds, 0x200, some 0xD015, .address 0x1000⟩
    ∧ (run 0xDF15 (State.reset.setV 15 8)).disp[0] = 0xF00
    ∧ (run 0xDF15 ((withCfg fun c => { c with drawLatch := .afterReset }).setV 15 8)).disp[0] = 0xF := by decide
/-- R206's remark on the second draw is not a consequence of R204 (assumption log 13): over a set pixel the second draw
does not collide. -/
theorem test_second_draw_need_not_collide :
    let s := ((State.reset.putByte 0x300 0x80).setI 0x300).setDisp (flipPixel blankDisplay 0)
    (run 0xD001 (run 0xD001 s)).getV 15 = 0 := by decide

/-! ### Timers and keypad (section 2.5) -/

theorem test_ldVxDt_T1 : let t := run 0xF307 (State.reset.setDt 5)
    t.getV 3 = 5 ∧ t.dt = 4 := by decide
theorem test_ldDtVx_T3_T4 : (run 0xF015 (State.reset.setV 0 5)).dt = 4 ∧ (run 0xF015 State.reset).dt = 0 := by decide
theorem test_ldStVx_T6 : (run 0xF118 (State.reset.setV 1 0x3C)).st = 0x3B := by decide
theorem test_tick_T7 : let t := run 0x6000 ((State.reset.setDt 3).setSt 1)
    t.dt = 2 ∧ t.st = 0 := by decide
theorem test_skp_T8_T9 : (run 0xE29E (setKey (State.reset.setV 2 5) 5 true)).pc = 0x204
    ∧ (run 0xE29E (State.reset.setV 2 5)).pc = 0x202 := by decide
theorem test_skp_T12 :
    recordOf (run 0xE29E (State.reset.setV 2 0x10)) = some ⟨.keyIndex, 0x200, some 0xE29E, .key 0x10⟩ := by decide
theorem test_sknp_T10_T11 : (run 0xE2A1 (State.reset.setV 2 5)).pc = 0x204
    ∧ (run 0xE2A1 (setKey (State.reset.setV 2 5) 5 true)).pc = 0x202 := by decide
theorem test_ldVxK_T14_T15 : let t := run 0xF50A (State.reset.setDt 3)
    t.mode = .awaitKey 5 ∧ t.pc = 0x202 ∧ t.dt = 2 ∧ nextOf (step t) = t := by decide
theorem test_ldVxK_T19 :
    recordOf (run 0xF50A (withCfg fun c => { c with waitPolicy := .fault }))
      = some ⟨.unimplemented, 0x200, some 0xF50A, .nothing⟩ := by decide
theorem test_keyEvent_T17_T18 :
    (keyEvent (run 0xF50A State.reset) 0xA).getV 5 = 0x0A ∧ (keyEvent (run 0xF50A State.reset) 0xA).mode = .running
    ∧ keyEvent State.reset 3 = State.reset := by decide

/-! ### Step and host (section 2.6) -/

theorem test_step_H1 : recordOf (nextOf (step State.reset)) = some ⟨.decodeError, 0x200, some 0x0000, .nothing⟩ := by
  decide
theorem test_load_H1 : load defaultConfig 0 (some []) matches .next _ := by decide
theorem test_load_P1 : bytesAt (nextOf (load defaultConfig 0 (some [0xA2, 0x00, 0x60]))) 0x1FF 5
    = [0, 0xA2, 0x00, 0x60, 0] := by decide
theorem test_step_H7 : recordOf (nextOf (step (State.reset.setPc 0xFFF))) = some ⟨.fetchBounds, 0xFFF, none, .nothing⟩ := by
  decide
theorem test_step_H8 : let t := run 0x6005 (State.reset.setPc 0x201)
    t.getV 0 = 5 ∧ t.pc = 0x203 := by decide
theorem test_takeDirty_H5 : let s := State.reset.setDirty true
    (takeDirty s).1 = true ∧ (takeDirty (takeDirty s).2).1 = false := by decide
theorem test_stop_H6 : let t := stop State.reset
    t.mode = .stopped ∧ nextOf (step t) = t := by decide
theorem test_fault_codes : [FaultCause.loadError, .decodeError, .fetchBounds, .memBounds, .reservedWrite, .stackOverflow,
    .stackUnderflow, .indexOverflow, .keyIndex, .unimplemented].map faultCode = List.range 10 := by decide

/-! ### A state that meets the hypotheses of each statement, one for each clause, at the clause's boundary -/

theorem witness_DecodeOfEncode : (Instr.sys 0x0EF).wellFormed = true := by decide
theorem witness_EncodeOfDecode : decode 0x00EF = .ok (.sys 0x0EF) := by decide
theorem witness_LoadGivesResetState : (List.replicate 3584 (0xFF : Byte)).length ≤ 3584 := by
  rw [List.length_replicate]
theorem witness_LoadRefused : 3584 < (List.replicate 3585 (0xFF : Byte)).length := by
  rw [List.length_replicate]; decide
theorem witness_FetchOutsideMemoryFaults : let s := State.reset.setPc 0xFFF
    s.mode = .running ∧ 0xFFE < s.pc.toNat := by decide
theorem witness_StepRunsDecoded : let s := put 0x8014 (State.reset.setPc 0xFFE)
    s.mode = .running ∧ s.pc.toNat ≤ 0xFFE ∧ decode (wordAtPc s) = .ok (.addReg 0 1) := by decide
theorem witness_DecodeErrorExactly_illegal : let s := put 0x5121 (State.reset.setPc 0xFFE)
    s.mode = .running ∧ s.pc.toNat ≤ 0xFFE ∧ IllegalWord s.cfg.sysPolicy (wordAtPc s) := by
  unfold IllegalWord; decide
theorem witness_DecodeErrorExactly_legal : let s := put 0x0123 (withCfg fun c => { c with sysPolicy := .nop })
    s.mode = .running ∧ s.pc.toNat ≤ 0xFFE ∧ ¬ IllegalWord s.cfg.sysPolicy (wordAtPc s) := by
  unfold IllegalWord; decide
theorem witness_TimersCountDown : let s := put 0x6000 ((State.reset.setDt 1).setSt 0)
    s.mode = .running ∧ step s = .next (nextOf (step s)) ∧ NotFaulted (nextOf (step s))
    ∧ decode (wordAtPc s) = .ok (.ldImm 0 0) := ⟨by decide, rfl, by unfold NotFaulted; decide, by decide⟩
theorem witness_WaitingStep :
    ((State.reset.setMode (.awaitKey 5)).mode = .awaitKey 5 ∧ (State.reset.setMode (.awaitKey 5)).cfg.awaitTimers = .frozen)
    ∧ let s := (withCfg fun c => { c with awaitTimers := .decrement }).setMode (.awaitKey 15)
      s.mode = .awaitKey 15 ∧ s.cfg.awaitTimers = .decrement := by decide
theorem witness_EndedRunStays : (stop State.reset).mode = .stopped
    ∧ (nextOf (step State.reset)).mode = .faulted ⟨.decodeError, 0x200, some 0, .nothing⟩ := by decide
theorem witness_FaultsArePrecise : State.reset.mode = .running ∧ step State.reset = .next (nextOf (step State.reset))
    ∧ (nextOf (step State.reset)).mode = .faulted ⟨.decodeError, 0x200, some 0, .nothing⟩ := ⟨rfl, rfl, by decide⟩
theorem witness_ModeTransitions_wait : let s := put 0xF50A State.reset
    transact s .step = .next (nextOf (transact s .step)) ∧ (nextOf (transact s .step)).mode ≠ s.mode :=
  ⟨rfl, by decide⟩
theorem witness_ModeTransitions_fault :
    transact State.reset .step = .next (nextOf (transact State.reset .step))
    ∧ (nextOf (transact State.reset .step)).mode ≠ State.reset.mode := ⟨rfl, by decide⟩
theorem witness_ModeTransitions_key : let s := State.reset.setMode (.awaitKey 5)
    transact s (.keyEvent 3) = .next (nextOf (transact s (.keyEvent 3)))
    ∧ (nextOf (transact s (.keyEvent 3))).mode ≠ s.mode := ⟨rfl, by decide⟩
theorem witness_ModeTransitions_stop :
    transact State.reset .stop = .next (nextOf (transact State.reset .stop))
    ∧ (nextOf (transact State.reset .stop)).mode ≠ State.reset.mode := ⟨rfl, by decide⟩
theorem witness_RegisterWriteTable : let i := Instr.ldVxMem 14
    exec i State.reset = .next (nextOf (exec i State.reset)) ∧ writesReg i 15 = false := ⟨rfl, by decide⟩
theorem witness_StateWriteTable : exec (.addReg 0 1) State.reset = .next (nextOf (exec (.addReg 0 1) State.reset))
    ∧ exec (.ldVxK 0) State.reset = .next (nextOf (exec (.ldVxK 0) State.reset))
    ∧ (nextOf (exec (.ldVxK 0) State.reset)).mode = .awaitKey 0 := ⟨rfl, rfl, by decide⟩
theorem witness_MemoryWriteTable : let s := State.reset.setI 0x200
    MemoryCanonical s ∧ exec (.ldBVx 0) s = .next (nextOf (exec (.ldBVx 0) s)) := ⟨Memory.wf_nil _, rfl⟩
theorem witness_MemoryCanonicalKept : let s := put 0xF033 ((State.reset.setI 0xFFD).setV 0 123)
    MemoryCanonical s ∧ transact s .step = .next (nextOf (transact s .step)) :=
  ⟨by unfold MemoryCanonical; decide, rfl⟩
theorem reserved_of_unwritten (s : State) (h : s.mem = []) : ReservedIntact s := by
  intro _ a _
  simp only [State.byteAt, h, Memory.read, Memory.unlisted]
  split <;> simp [*]
theorem witness_ReservedRegionKept : let s := (State.reset.setI 0x200).setV 0 123
    MemoryCanonical s ∧ ReservedIntact s ∧ s.cfg.reservedWrite = .fault
    ∧ transact s .step = .next (nextOf (transact s .step)) :=
  ⟨Memory.wf_nil _, reserved_of_unwritten _ rfl, rfl, rfl⟩
theorem witness_PcReachKept : let s := State.reset.setPc 0x10FE
    PcInReach s ∧ step s = .next (nextOf (step s)) := ⟨⟨by decide, by decide⟩, rfl⟩
theorem witness_DirtyAndSoundUnobserved : let s := put 0xF018 (State.reset.setSt 7)
    step s = .next (nextOf (step s)) := rfl
theorem witness_OnlyRndDraws : (∀ x kk, Instr.cls ≠ .rnd x kk)
    ∧ exec .cls State.reset = .next (nextOf (exec .cls State.reset)) := ⟨fun _ _ h => Instr.noConfusion h, rfl⟩
theorem witness_CallPushesReturnAddress : ({ State.reset with sp := 15 } : State).sp.val < 16
    ∧ ({ State.reset with sp := 16 } : State).sp.val = 16 := by decide
theorem witness_ReturnPops : ({ State.reset with sp := 16 } : State).sp.val = (15 : Fin 16).val + 1
    ∧ State.reset.sp.val = 0 := by decide
theorem witness_ReturnAfterCall : let s : State := { State.reset with sp := 15 }
    s.sp.val < 16 ∧ exec (.call 0x300) s = .next (nextOf (exec (.call 0x300) s)) := ⟨by decide, rfl⟩
theorem witness_SystemCallSpace : (withCfg fun c => { c with sysPolicy := .nop }).cfg.sysPolicy = .nop
    ∧ State.reset.cfg.sysPolicy = .fault := by decide
theorem witness_destination_not_VF : (14 : Reg) ≠ 15 := by decide
theorem witness_AddToIndex : let s := State.reset.setI 0xFF00
    s.i.toNat + ((s.setV 0 0xFF).getV 0).toNat ≤ 0xFFFF
    ∧ 0xFFFF < ((s.setI 0xFF01).setV 0 0xFF).i.toNat + ((s.setI 0xFF01).setV 0 0xFF |>.getV 0).toNat := by decide
theorem witness_StoreDecimalDigits : let s := State.reset.setI 0xFFD
    MemoryCanonical s ∧ (s.cfg.reservedWrite = .allow ∨ 0x1FF < s.i.toNat) ∧ s.i.toNat + 2 ≤ 0xFFF :=
  ⟨Memory.wf_nil _, by decide, by decide⟩
theorem witness_StoreDecimalDigits_low : let s := State.reset.setI 0x200
    MemoryCanonical s ∧ (s.cfg.reservedWrite = .allow ∨ 0x1FF < s.i.toNat) ∧ s.i.toNat + 2 ≤ 0xFFF :=
  ⟨Memory.wf_nil _, by decide, by decide⟩
theorem witness_StoreRegisters : let s := State.reset.setI 0xFF0
    MemoryCanonical s ∧ (s.cfg.reservedWrite = .allow ∨ 0x1FF < s.i.toNat) ∧ s.i.toNat + (15 : Reg).val ≤ 0xFFF :=
  ⟨Memory.wf_nil _, by decide, by decide⟩
theorem witness_StoreRegisters_allowed : let s := withCfg fun c => { c with reservedWrite := .allow }
    MemoryCanonical s ∧ (s.cfg.reservedWrite = .allow ∨ 0x1FF < s.i.toNat) ∧ s.i.toNat + (0 : Reg).val ≤ 0xFFF :=
  ⟨Memory.wf_nil _, by decide, by decide⟩
theorem witness_StoreFaults :
    (State.reset.cfg.reservedWrite = .fault ∧ (State.reset.setI 0x1FF).i.toNat ≤ 0x1FF)
    ∧ 0xFFF < (State.reset.setI 0xFFE).i.toNat + 2
    ∧ 0xFFF < (State.reset.setI 0xFF1).i.toNat + (15 : Reg).val := by decide
theorem witness_LoadRegisters : (State.reset.setI 0xFF0).i.toNat + (15 : Reg).val ≤ 0xFFF
    ∧ 0xFFF < (State.reset.setI 0xFF1).i.toNat + (15 : Reg).val := by decide
theorem witness_DumpThenLoad : let s := State.reset.setI 0xFF0
    MemoryCanonical s ∧ exec (.ldMemVx 15) s = .next (nextOf (exec (.ldMemVx 15) s))
    ∧ ¬ (nextOf (exec (.ldMemVx 15) s)).mode.isFaulted := ⟨Memory.wf_nil _, rfl, by decide⟩
theorem witness_StoredCodeIsFetched : let s := State.reset.setI 0x200
    MemoryCanonical s ∧ exec (.ldMemVx 15) s = .next (nextOf (exec (.ldMemVx 15) s))
    ∧ ¬ (nextOf (exec (.ldMemVx 15) s)).mode.isFaulted ∧ (14 : Fin 15).val < (15 : Reg).val
    ∧ (0x20E : Word).toNat = s.i.toNat + (14 : Fin 15).val := ⟨Memory.wf_nil _, rfl, by decide, by decide, by decide⟩
theorem witness_SpriteBitsApart : pixelIndex .perAxis (255 + 7) (255 + 14) = pixelIndex .perAxis (255 + 7) (255 + 14) := rfl
theorem witness_DrawSprite : (0 : Nibble).toNat = 0
    ∧ (State.reset.setI 0xFF1).i.toNat + (15 : Nibble).toNat ≤ 0x1000 := by decide
theorem witness_DrawSprite_collision : let s := State.reset.setDisp (flipPixel blankDisplay 0)
    SpriteCovers s 0 1 5 0 ∧ pixel s.disp 0 = true := ⟨⟨0, 0, by decide⟩, by decide⟩
theorem witness_DrawSprite_none : ¬ ∃ p, SpriteCovers State.reset 0 1 0 p ∧ pixel State.reset.disp p = true := by
  rintro ⟨p, ⟨r, c, h, -⟩, -⟩
  exact Nat.not_lt_zero r h
theorem witness_DrawOutsideMemoryFaults : 1 ≤ (1 : Nibble).toNat
    ∧ 0x1000 < (State.reset.setI 0x1000).i.toNat + (1 : Nibble).toNat := by decide
theorem witness_DrawTwiceRestores : let s := State.reset.setV 15 8
    ((5 : Nibble).toNat = 0 ∨ s.i.toNat + (5 : Nibble).toNat ≤ 0x1000)
    ∧ exec (.drw 0 1 5) s = .next (nextOf (exec (.drw 0 1 5) s))
    ∧ originValue (nextOf (exec (.drw 0 1 5) s)) 0 = originValue s 0
    ∧ originValue (nextOf (exec (.drw 0 1 5) s)) 1 = originValue s 1
    ∧ SpriteCovers s 0 1 5 0 ∧ pixel s.disp 0 = false :=
  ⟨by decide, rfl, by unfold originValue; decide, by unfold originValue; decide, ⟨0, 0, by unfold originValue; decide⟩,
    by decide⟩
theorem witness_TimerWriteThenTick : let s := put 0xF015 State.reset
    let u := put 0xFF18 (State.reset.setPc 0xFFE)
    (s.mode = .running ∧ s.pc.toNat ≤ 0xFFE ∧ decode (wordAtPc s) = .ok (.ldDtVx 0))
    ∧ u.mode = .running ∧ u.pc.toNat ≤ 0xFFE ∧ decode (wordAtPc u) = .ok (.ldStVx 15) := by decide
theorem witness_KeySkips : ((State.reset.setV 2 15).getV 2).toNat < 16 ∧ 15 < ((State.reset.setV 2 16).getV 2).toNat := by
  decide
theorem witness_WaitForKey : State.reset.cfg.waitPolicy = .await
    ∧ (withCfg fun c => { c with waitPolicy := .fault }).cfg.waitPolicy = .fault := by decide
theorem witness_KeyEventCompletesWait : (State.reset.setMode (.awaitKey 15)).mode = .awaitKey 15
    ∧ ∀ x, State.reset.mode ≠ .awaitKey x := by decide
theorem witness_HostTransactions : State.reset.mode = .running
    ∧ (State.reset.setMode (.awaitKey 0)).mode = .awaitKey 0 ∧ (stop State.reset).mode = .stopped
    ∧ (nextOf (step State.reset)).mode = .faulted ⟨.decodeError, 0x200, some 0, .nothing⟩ := by decide

end Sys2Proof.Tests
end

section
/-! SUPPORT. Frames: one rule per state operation, the fields each instruction may write, and what an instruction that
completes leaves. -/

namespace Sys2Proof.Machine

/-! ### The step, one equation per case of 60_exceptions.md R250 -/

theorem step_of_stopped {s : State} (hm : s.mode = .stopped) : step s = .next s := by
  simp only [step, hm]

theorem step_of_faulted {s : State} {info : FaultInfo} (hm : s.mode = .faulted info) : step s = .next s := by
  simp only [step, hm]

theorem step_of_awaitKey {s : State} {x : Reg} (hm : s.mode = .awaitKey x) : step s = .next (awaitStep s) := by
  simp only [step, hm]

theorem step_of_fetch_error {s : State} {f : Trap} (hm : s.mode = .running) (hf : fetch s s.pc = .error f) :
    step s = .next (takeFault s f none) := by
  simp only [step, hm, hf]

theorem step_of_decode_error {s : State} {op : Opcode} {r : DecodeReject} (hm : s.mode = .running)
    (hf : fetch s s.pc = .ok op) (hd : decode op = .error r) :
    step s = .next (takeFault s ⟨.decodeError, .nothing⟩ (some op)) := by
  simp only [step, hm, hf, hd]

theorem step_of_exec {s u : State} {op : Opcode} {i : Instr} (hm : s.mode = .running) (hf : fetch s s.pc = .ok op)
    (hd : decode op = .ok i) (he : exec i s = .next u) : step s = .next (endStep u) := by
  simp only [step, hm, hf, hd, he]

/-- The word a completed fetch at `PC` answers. -/
theorem fetch_pc_eq_wordAtPc {s : State} {op : Opcode} (h : fetch s s.pc = .ok op) : op = wordAtPc s :=
  (fetch_ok h).2

/-! ### The end of a step -/

@[simp] theorem endStep_mode (t : State) : (endStep t).mode = t.mode := by
  unfold endStep
  split <;> rfl

/-- A wait is the state itself or the tick alone (44_timers_keypad.md R241). -/
theorem awaitStep_cases (s : State) : awaitStep s = s ∨ awaitStep s = tick s := by
  unfold awaitStep
  cases s.cfg.awaitTimers
  · exact .inl rfl
  · exact .inr rfl

@[simp] theorem awaitStep_mode (s : State) : (awaitStep s).mode = s.mode := by
  unfold awaitStep
  cases s.cfg.awaitTimers <;> rfl

/-! ### Frames: one rule per update -/

theorem KeepsAllBut.refl (fs : List Field) (s : State) : KeepsAllBut fs s s := by
  intro f _
  cases f
  case mem => exact fun _ => rfl
  all_goals rfl

section
variable {fs : List Field} {s t : State} (h : KeepsAllBut fs s t)
include h

theorem KeepsAllBut.setV (hf : .v ∈ fs) (x : Reg) (b : Byte) : KeepsAllBut fs s (t.setV x b) := by
  intro f hn
  cases f
  case v => exact absurd hf hn
  all_goals exact h _ hn

theorem KeepsAllBut.setAllV (hf : .v ∈ fs) (w : Vector Byte 16) : KeepsAllBut fs s (t.setAllV w) := by
  intro f hn
  cases f
  case v => exact absurd hf hn
  all_goals exact h _ hn

theorem KeepsAllBut.setI (hf : .i ∈ fs) (w : Word) : KeepsAllBut fs s (t.setI w) := by
  intro f hn
  cases f
  case i => exact absurd hf hn
  all_goals exact h _ hn

theorem KeepsAllBut.setPc (hf : .pc ∈ fs) (w : Word) : KeepsAllBut fs s (t.setPc w) := by
  intro f hn
  cases f
  case pc => exact absurd hf hn
  all_goals exact h _ hn

theorem KeepsAllBut.setSp (hf : .sp ∈ fs) (n : Fin 17) : KeepsAllBut fs s (t.setSp n) := by
  intro f hn
  cases f
  case sp => exact absurd hf hn
  all_goals exact h _ hn

theorem KeepsAllBut.setStack (hf : .stack ∈ fs) (j : Fin 16) (w : Word) : KeepsAllBut fs s (t.setStack j w) := by
  intro f hn
  cases f
  case stack => exact absurd hf hn
  all_goals exact h _ hn

theorem KeepsAllBut.setDt (hf : .dt ∈ fs) (b : Byte) : KeepsAllBut fs s (t.setDt b) := by
  intro f hn
  cases f
  case dt => exact absurd hf hn
  all_goals exact h _ hn

theorem KeepsAllBut.setSt (hf : .st ∈ fs) (b : Byte) : KeepsAllBut fs s (t.setSt b) := by
  intro f hn
  cases f
  case st => exact absurd hf hn
  all_goals exact h _ hn

theorem KeepsAllBut.setDisp (hf : .disp ∈ fs) (d : Display) : KeepsAllBut fs s (t.setDisp d) := by
  intro f hn
  cases f
  case disp => exact absurd hf hn
  all_goals exact h _ hn

theorem KeepsAllBut.setDirty (hf : .dirty ∈ fs) (b : Bool) : KeepsAllBut fs s (t.setDirty b) := by
  intro f hn
  cases f
  case dirty => exact absurd hf hn
  all_goals exact h _ hn

theorem KeepsAllBut.setMode (hf : .mode ∈ fs) (m : Mode) : KeepsAllBut fs s (t.setMode m) := by
  intro f hn
  cases f
  case mode => exact absurd hf hn
  all_goals exact h _ hn

theorem KeepsAllBut.setMem (hf : .mem ∈ fs) (m : List Host.Cell) : KeepsAllBut fs s (t.setMem m) := by
  intro f hn
  cases f
  case mem => exact absurd hf hn
  all_goals exact h _ hn

theorem KeepsAllBut.setDraws (hf : .draws ∈ fs) (k : Nat) : KeepsAllBut fs s (t.setDraws k) := by
  intro f hn
  cases f
  case draws => exact absurd hf hn
  all_goals exact h _ hn

theorem KeepsAllBut.skipIf (hf : .pc ∈ fs) (c : Bool) : KeepsAllBut fs s (skipIf c t) := by
  rw [skipIf_eq]
  exact h.setPc hf _

theorem KeepsAllBut.writeShift (hf : .v ∈ fs) (x : Reg) (shift : Byte → Byte) (flag : Byte) :
    KeepsAllBut fs s (writeShift t x shift flag) := by
  rw [writeShift_fields]
  exact h.setAllV hf _

theorem KeepsAllBut.memWriteBytes {u : State} {a : Nat} {bs : List Byte} (hf : .mem ∈ fs)
    (hw : memWriteBytes t a bs = .ok u) : KeepsAllBut fs s u := by
  rw [memWriteBytes_fields hw]
  exact h.setMem hf _

end

/-! ### Instructions that may fault: what they leave when they complete -/

/-- `t` is `s` with a fault taken. -/
def FaultTaken (s t : State) : Prop := ∃ f op, t = takeFault s f op

section
variable {s t : State} (hf : ¬ FaultTaken s t)
include hf

/-- Where no fault was taken, the outcome is what the instruction did. -/
theorem conclude_completes {i : Instr} {r : Except Trap State} (h : conclude s i r = .next t) : r = .ok t := by
  rcases conclude_next h with h | ⟨f, -, h⟩
  · exact h
  · exact absurd ⟨f, _, h⟩ hf

theorem execRet_completes (h : execRet s = .next t) :
    ∃ (hsp : s.sp.val - 1 < 16) (n : Fin 17), t = ((advance s).setSp n).setPc s.stack[s.sp.val - 1] := by
  have hr := conclude_completes hf h
  split at hr
  · cases hr
  · next w u hp =>
    obtain ⟨hsp, -, rfl, rfl⟩ := pop_ok hp
    cases hr
    exact ⟨hsp, _, rfl⟩

theorem execSys_completes {nnn : Addr} (h : execSys nnn s = .next t) : t = advance s := by
  have hr := conclude_completes hf h
  split at hr
  · cases hr
  · exact (Except.ok.inj hr).symm

theorem execCall_completes {nnn : Addr} (h : execCall nnn s = .next t) :
    ∃ (j : Fin 16) (n : Fin 17), t = (((advance s).setStack j (s.pc + 2)).setSp n).setPc (zextAddr nnn) := by
  have hr := conclude_completes hf h
  split at hr
  · cases hr
  · next u hp =>
    obtain ⟨hsp, rfl⟩ := push_ok hp
    cases hr
    exact ⟨⟨_, hsp⟩, _, rfl⟩

theorem execSkp_completes {x : Reg} (h : execSkp x s = .next t) : ∃ c, t = skipIf c (advance s) := by
  have hr := conclude_completes hf h
  split at hr
  · cases hr
  · exact ⟨_, (Except.ok.inj hr).symm⟩

theorem execSknp_completes {x : Reg} (h : execSknp x s = .next t) : ∃ c, t = skipIf c (advance s) := by
  have hr := conclude_completes hf h
  split at hr
  · cases hr
  · exact ⟨_, (Except.ok.inj hr).symm⟩

theorem execLdVxK_completes {x : Reg} (h : execLdVxK x s = .next t) : t = (advance s).setMode (.awaitKey x) := by
  have hr := conclude_completes hf h
  split at hr
  · exact (Except.ok.inj hr).symm
  · cases hr

theorem execAddIVx_completes {x : Reg} (h : execAddIVx x s = .next t) : ∃ w, t = (advance s).setI w := by
  have hr := conclude_completes hf h
  split at hr
  · cases hr
  · exact ⟨_, (Except.ok.inj hr).symm⟩

theorem execDrw_completes {x y : Reg} {n : Nibble} (h : execDrw x y n s = .next t) :
    ∃ rows, t = drawRows (advance s) x y rows := by
  have hr := conclude_completes hf h
  split at hr
  · cases hr
  · exact ⟨_, (Except.ok.inj hr).symm⟩

theorem execLdVxMem_completes {x : Reg} (h : execLdVxMem x s = .next t) :
    ∃ bs, memReadBytes (advance s) (indexAddress s) (x.val + 1) = .ok bs ∧ t = (advance s).loadV bs := by
  have hr := conclude_completes hf h
  split at hr
  · cases hr
  · next bs hb => exact ⟨bs, hb, (Except.ok.inj hr).symm⟩

end

/-! ### The fields an instruction may write -/

/-- The fields that 10_state.md R23-R40 and 20_memory.md R69 let the instruction write beside `PC` and `Mode`, the model's
draw counter among them. -/
def writtenFields : Instr → List Field
  | .cls => [.disp, .dirty]
  | .ret => [.sp]
  | .call _ => [.sp, .stack]
  | .ldImm _ _ | .addImm _ _ | .ldReg _ _ | .orReg _ _ | .andReg _ _ | .xorReg _ _ | .addReg _ _ | .sub _ _ | .shr _ _
  | .subn _ _ | .shl _ _ | .ldVxDt _ | .ldVxMem _ => [.v]
  | .rnd _ _ => [.v, .draws]
  | .drw _ _ _ => [.v, .disp, .dirty]
  | .ldI _ | .addIVx _ | .ldFVx _ => [.i]
  | .ldDtVx _ => [.dt]
  | .ldStVx _ => [.st]
  | .ldBVx _ | .ldMemVx _ => [.mem]
  | .sys _ | .jp _ | .seImm _ _ | .sneImm _ _ | .seReg _ _ | .sneReg _ _ | .jpV0 _ | .skp _ | .sknp _ | .ldVxK _ => []

theorem FaultTaken.keepsAllBut {s t : State} (h : FaultTaken s t) {fs : List Field} (hm : .mode ∈ fs) :
    KeepsAllBut fs s t := by
  obtain ⟨f, op, rfl⟩ := h
  exact (KeepsAllBut.refl fs s).setMode hm _

/-- What an instruction leaves unchanged: every field outside `PC`, `Mode` and those it may write. -/
theorem exec_keepsAllBut {i : Instr} {s t : State} (h : exec i s = .next t) :
    KeepsAllBut (.pc :: .mode :: writtenFields i) s t := by
  by_cases hf : FaultTaken s t
  · exact hf.keepsAllBut (by simp)
  have hadv : KeepsAllBut (.pc :: .mode :: writtenFields i) s (advance s) := (KeepsAllBut.refl _ s).setPc (by simp) _
  cases i with
  | cls => cases h; exact (hadv.setDisp (by decide) _).setDirty (by decide) _
  | ret =>
    obtain ⟨_, n, rfl⟩ := execRet_completes hf h
    exact (hadv.setSp (by decide) n).setPc (by decide) _
  | sys nnn => rw [execSys_completes hf h]; exact hadv
  | jp _ | jpV0 _ => cases h; exact hadv.setPc List.mem_cons_self _
  | call nnn =>
    obtain ⟨j, n, rfl⟩ := execCall_completes hf h
    exact ((hadv.setStack (by simp [writtenFields]) j _).setSp (by simp [writtenFields]) n).setPc (by simp) _
  | seImm x kk | sneImm x kk | seReg x y | sneReg x y => cases h; exact hadv.skipIf List.mem_cons_self _
  | skp x => obtain ⟨c, rfl⟩ := execSkp_completes hf h; exact hadv.skipIf List.mem_cons_self c
  | sknp x => obtain ⟨c, rfl⟩ := execSknp_completes hf h; exact hadv.skipIf List.mem_cons_self c
  | ldImm x _ | addImm x _ | ldReg x _ | orReg x _ | andReg x _ | xorReg x _ | ldVxDt x =>
    cases h; exact hadv.setV (by simp [writtenFields]) x _
  | addReg x y | sub x y | subn x y =>
    cases h; exact (hadv.setV (by simp [writtenFields]) x _).setV (by simp [writtenFields]) _ _
  | shr x y | shl x y => cases h; exact hadv.writeShift (by simp [writtenFields]) x _ _
  | rnd x kk => cases h; exact (hadv.setDraws (by simp [writtenFields]) _).setV (by simp [writtenFields]) x _
  | drw x y n =>
    obtain ⟨rows, rfl⟩ := execDrw_completes hf h
    exact ((hadv.setV (by simp [writtenFields]) _ _).setDisp (by simp [writtenFields]) _).setDirty
      (by simp [writtenFields]) _
  | ldI _ | ldFVx _ => cases h; exact hadv.setI (by simp [writtenFields]) _
  | addIVx x => obtain ⟨w, rfl⟩ := execAddIVx_completes hf h; exact hadv.setI (by simp [writtenFields]) w
  | ldDtVx x => cases h; exact hadv.setDt (by simp [writtenFields]) _
  | ldStVx x => cases h; exact hadv.setSt (by simp [writtenFields]) _
  | ldVxK x => rw [execLdVxK_completes hf h]; exact hadv.setMode (by simp) _
  | ldBVx x | ldMemVx x => exact hadv.memWriteBytes (by simp [writtenFields]) (conclude_completes hf h)
  | ldVxMem x =>
    obtain ⟨bs, -, rfl⟩ := execLdVxMem_completes hf h
    exact hadv.setAllV (by simp [writtenFields]) _

/-- An instruction keeps a field it does not list. -/
theorem exec_keepsField {i : Instr} {s t : State} (h : exec i s = .next t) {f : Field} (hpc : f ≠ .pc)
    (hmode : f ≠ .mode) (hf : f ∉ writtenFields i) : KeepsField s t f :=
  exec_keepsAllBut h f (by simp [hpc, hmode, hf])

end Sys2Proof.Machine
end

section
/-! SUPPORT. What an instruction and a load do to each part of the state: PC, the stack, memory, the registers, the mode. -/

namespace Sys2Proof.Machine

/-! ### PC and the stack after an instruction (40_control_flow.md) -/

/-- The next state's `PC`: kept by a fault, else the next instruction or the one after it, a target of `JP` or `CALL`, an
indexed target, or a stack slot. -/
theorem exec_pc_cases {i : Instr} {s t : State} (h : exec i s = .next t) :
    t.pc = s.pc ∨ t.pc = s.pc + 2 ∨ t.pc = s.pc + 2 + 2 ∨ (∃ nnn, t.pc = zextAddr nnn) ∨
      (∃ nnn, t.pc = indexedTarget nnn s) ∨ ∃ j : Fin 16, t.pc = s.stack[j.val] := by
  have skipped (c : Bool) : (skipIf c (advance s)).pc = s.pc + 2 ∨ (skipIf c (advance s)).pc = s.pc + 2 + 2 := by
    cases c
    · exact .inl rfl
    · exact .inr rfl
  by_cases hf : FaultTaken s t
  · obtain ⟨f, op, rfl⟩ := hf
    exact .inl rfl
  refine .inr ?_
  cases i with
  | ret =>
    obtain ⟨hsp, n, rfl⟩ := execRet_completes hf h
    exact .inr (.inr (.inr (.inr ⟨⟨_, hsp⟩, rfl⟩)))
  | call nnn =>
    obtain ⟨j, n, rfl⟩ := execCall_completes hf h
    exact .inr (.inr (.inl ⟨nnn, rfl⟩))
  | jp nnn => cases h; exact .inr (.inr (.inl ⟨nnn, rfl⟩))
  | jpV0 nnn => cases h; exact .inr (.inr (.inr (.inl ⟨nnn, rfl⟩)))
  | seImm x kk | sneImm x kk | seReg x y | sneReg x y => cases h; exact (skipped _).imp_right .inl
  | skp x => obtain ⟨c, rfl⟩ := execSkp_completes hf h; exact (skipped c).imp_right .inl
  | sknp x => obtain ⟨c, rfl⟩ := execSknp_completes hf h; exact (skipped c).imp_right .inl
  | sys nnn => rw [execSys_completes hf h]; exact .inl rfl
  | ldVxK x => rw [execLdVxK_completes hf h]; exact .inl rfl
  | addIVx x => obtain ⟨w, rfl⟩ := execAddIVx_completes hf h; exact .inl rfl
  | drw x y n => obtain ⟨rows, rfl⟩ := execDrw_completes hf h; exact .inl rfl
  | ldVxMem x => obtain ⟨bs, -, rfl⟩ := execLdVxMem_completes hf h; exact .inl rfl
  | ldBVx x | ldMemVx x => rw [memWriteBytes_fields (conclude_completes hf h)]; exact .inl rfl
  | shr x y | shl x y => cases h; rw [writeShift_fields]; exact .inl rfl
  | cls | ldImm _ _ | addImm _ _ | ldReg _ _ | orReg _ _ | andReg _ _ | xorReg _ _ | addReg _ _ | sub _ _ | subn _ _
  | ldI _ | rnd _ _ | ldVxDt _ | ldDtVx _ | ldStVx _ | ldFVx _ => cases h; exact .inl rfl

/-- The stack after an instruction: as it was, or the return address in one slot. -/
theorem exec_stack_cases {i : Instr} {s t : State} (h : exec i s = .next t) :
    t.stack = s.stack ∨ ∃ j : Fin 16, t.stack = s.stack.set j.val (s.pc + 2) := by
  by_cases hcall : .stack ∈ writtenFields i
  · by_cases hf : FaultTaken s t
    · exact .inl (hf.keepsAllBut (fs := [.mode]) (by decide) .stack (by decide))
    cases i with
    | call nnn =>
      obtain ⟨j, n, rfl⟩ := execCall_completes hf h
      exact .inr ⟨j, rfl⟩
    | _ => simp [writtenFields] at hcall
  · exact .inl (exec_keepsField (f := .stack) h (by decide) (by decide) hcall)

theorem zextAddr_toNat (nnn : Addr) : (zextAddr nnn).toNat = nnn.toNat := by
  have := nnn.isLt
  simp only [zextAddr, BitVec.toNat_setWidth]
  omega

/-- An instruction fetched inside memory leaves `PC` and the stack in reach. -/
theorem exec_pcInReach {i : Instr} {s t : State} (hs : PcInReach s) (hpc : s.pc.toNat ≤ 0xFFE)
    (h : exec i s = .next t) : PcInReach t := by
  obtain ⟨-, hstack⟩ := hs
  have hnext : (s.pc + 2).toNat = s.pc.toNat + 2 := by bv_omega
  have hskip : (s.pc + 2 + 2).toNat = s.pc.toNat + 4 := by bv_omega
  constructor
  · rcases exec_pc_cases h with hp | hp | hp | ⟨nnn, hp⟩ | ⟨nnn, hp⟩ | ⟨j, hp⟩ <;> rw [hp]
    · omega
    · omega
    · omega
    · have := nnn.isLt
      rw [zextAddr_toNat]; omega
    · have := nnn.isLt
      have := (s.getV 0).isLt
      rw [indexedTarget_toNat]; omega
    · have := hstack j
      omega
  · intro k
    rcases exec_stack_cases h with hk | ⟨j, hk⟩
    · simpa only [hk] using hstack k
    · simp only [hk, Vector.getElem_set]
      split
      · omega
      · exact hstack k

theorem tick_pcInReach {s : State} (hs : PcInReach s) : PcInReach (tick s) := hs

theorem endStep_pcInReach {t : State} (ht : PcInReach t) : PcInReach (endStep t) := by
  rcases endStep_cases t with ⟨-, h⟩ | ⟨-, h⟩ <;> rw [h]
  · exact ht
  · exact tick_pcInReach ht

/-- Settles O20: by the cases of a step; an instruction runs only where both its bytes lie in memory, and then every way
it sets `PC` is bounded. -/
theorem pcReachKept : Obligations.PcReachKept := by
  unfold Obligations.PcReachKept
  intro s t hs h
  rcases step_cases h with ⟨-, rfl⟩ | ⟨-, rfl⟩ | ⟨-, -, rfl⟩ | ⟨-, hpc, op, -, ⟨r, -, rfl⟩ | ⟨i, u, -, hu, rfl⟩⟩
  · exact hs
  · rcases awaitStep_cases s with ha | ha <;> rw [ha]
    · exact hs
    · exact tick_pcInReach hs
  · exact hs
  · exact hs
  · exact endStep_pcInReach (exec_pcInReach hs hpc hu)

/-! ### Memory after an instruction and after a load -/

/-- Memory after an instruction: as it was, or what the stores of Fx33 or Fx55 from `I` up leave. -/
theorem exec_mem_cases {i : Instr} {s t : State} (h : exec i s = .next t) :
    (∀ a, t.byteAt a = s.byteAt a) ∨
      ∃ bs, bs.length = storeCount i ∧ memWriteBytes (advance s) (indexAddress s) bs = .ok t := by
  by_cases hstore : .mem ∈ writtenFields i
  · by_cases hf : FaultTaken s t
    · exact .inl (hf.keepsAllBut (fs := [.mode]) (by decide) .mem (by decide))
    cases i with
    | ldBVx x => exact .inr ⟨_, rfl, conclude_completes hf h⟩
    | ldMemVx x => exact .inr ⟨_, dumpBytes_length s x, conclude_completes hf h⟩
    | _ => simp [writtenFields] at hstore
  · exact .inl (exec_keepsField (f := .mem) h (by decide) (by decide) hstore)

theorem exec_cfg {i : Instr} {s t : State} (h : exec i s = .next t) : t.cfg = s.cfg :=
  exec_keepsField (f := .cfg) h (by decide) (by decide) (by cases i <;> simp [writtenFields])

/-- Stores that complete under `P_RESERVED_WRITE = FAULT` leave 0x000-0x1FF (20_memory.md R66). -/
theorem memWriteBytes_reserved_kept {s t : State} {a c : Nat} {bs : List Byte} (hs : MemoryCanonical s)
    (hr : s.cfg.reservedWrite = .fault) (h : memWriteBytes s a bs = .ok t) (hc : c ≤ 0x1FF) :
    t.byteAt c = s.byteAt c := by
  cases bs with
  | nil => cases h; rfl
  | cons b bs =>
    have ha : 0x1FF < a := by
      by_contra ha
      rw [memWriteBytes_reserved hr (by omega)] at h
      cases h
    rw [memWriteBytes_byteAt hs h, if_pos (by omega)]

/-- The reserved region stays intact wherever the parameters and its bytes are as before. -/
theorem ReservedIntact.congr {s t : State} (hs : ReservedIntact s) (hcfg : t.cfg = s.cfg)
    (hb : s.cfg.reservedWrite = .fault → ∀ a, a ≤ 0x1FF → t.byteAt a = s.byteAt a) : ReservedIntact t := by
  intro hr a ha
  rw [hcfg] at hr
  simp only [hcfg]
  rw [hb hr a ha]
  exact hs hr a ha

theorem exec_reservedIntact {i : Instr} {s t : State} (hm : MemoryCanonical s) (hs : ReservedIntact s)
    (h : exec i s = .next t) : ReservedIntact t := by
  refine hs.congr (exec_cfg h) fun hr a ha => ?_
  rcases exec_mem_cases h with hb | ⟨bs, -, hw⟩
  · exact hb a
  · exact memWriteBytes_reserved_kept (s := advance s) hm hr hw ha

theorem endStep_reservedIntact {t : State} (ht : ReservedIntact t) : ReservedIntact (endStep t) := by
  rcases endStep_cases t with ⟨-, h⟩ | ⟨-, h⟩ <;> rw [h]
  · exact ht
  · exact ht.congr rfl fun _ _ _ => rfl

theorem step_reservedIntact {s t : State} (hm : MemoryCanonical s) (hs : ReservedIntact s) (h : step s = .next t) :
    ReservedIntact t := by
  rcases step_cases h with ⟨-, rfl⟩ | ⟨-, rfl⟩ | ⟨-, -, rfl⟩ | ⟨-, -, op, -, ⟨r, -, rfl⟩ | ⟨i, u, -, hu, rfl⟩⟩
  · exact hs
  · rcases awaitStep_cases s with ha | ha <;> rw [ha]
    · exact hs
    · exact hs.congr rfl fun _ _ _ => rfl
  · exact hs.congr rfl fun _ _ _ => rfl
  · exact hs.congr rfl fun _ _ _ => rfl
  · exact endStep_reservedIntact (exec_reservedIntact hm hs hu)

/-- A load's bytes change memory alone. -/
theorem placeBytes_fields (s : State) (a : Nat) (bs : List Byte) :
    placeBytes s a bs = { s with mem := (placeBytes s a bs).mem } := by
  induction bs generalizing s a with
  | nil => rfl
  | cons b bs ih =>
    simp only [placeBytes]
    rw [ih]
    rfl

/-- What each byte reads as after the program is placed. -/
theorem placeBytes_byteAt {s : State} {a : Nat} {bs : List Byte} (hs : MemoryCanonical s)
    (ha : a + bs.length ≤ 4096) (c : Nat) :
    (placeBytes s a bs).byteAt c = if c < a then s.byteAt c else (bs[c - a]?).getD (s.byteAt c) := by
  induction bs generalizing s a with
  | nil => simp [placeBytes]
  | cons b bs ih =>
    rw [List.length_cons] at ha
    rw [placeBytes, ih (State.wf_putByte hs (by omega) b) (by omega), State.byteAt_putByte hs]
    rcases Nat.lt_trichotomy c a with hc | rfl | hc
    · rw [if_pos (by omega), if_neg (by omega), if_pos hc]
    · simp
    · rw [if_neg (by omega), if_neg (by omega), if_neg (by omega), show c - a = (c - (a + 1)) + 1 by omega,
        List.getElem?_cons_succ]

theorem initial_canonical (cfg : Config) (draws : Nat) : MemoryCanonical (initial cfg draws) :=
  Memory.wf_nil _

/-- Before the program is placed, memory reads as the font and zeros (10_state.md R41, R44). -/
theorem initial_byteAt (cfg : Config) (draws a : Nat) :
    (initial cfg draws).byteAt a = if h : a < 80 then cfg.font[a] else 0 := by
  change (cfg.font[a]?).getD 0 = _
  split
  · next h => rw [Vector.getElem?_eq_getElem h, Option.getD_some]
  · next h => rw [Vector.getElem?_eq_none (by omega), Option.getD_none]

theorem load_of_le (cfg : Config) (draws : Nat) {bs : List Byte} (h : bs.length ≤ 3584) :
    load cfg draws (some bs) = .next (placeBytes (initial cfg draws) 0x200 bs) :=
  if_neg (Nat.not_lt.2 h)

theorem load_of_gt (cfg : Config) (draws : Nat) {bs : List Byte} (h : 3584 < bs.length) :
    load cfg draws (some bs) = .fault (.loadError (.tooLong bs.length)) :=
  if_pos h

/-- A load that answers a state placed at most 3584 bytes from 0x200 (60_exceptions.md R265, R277). -/
theorem load_next {cfg : Config} {draws : Nat} {bytes : Option (List Byte)} {t : State}
    (h : load cfg draws bytes = .next t) :
    ∃ bs, bytes = some bs ∧ bs.length ≤ 3584 ∧ t = placeBytes (initial cfg draws) 0x200 bs := by
  cases bytes with
  | none => cases h
  | some bs =>
    by_cases hlen : bs.length ≤ 3584
    · rw [load_of_le cfg draws hlen] at h
      exact ⟨bs, rfl, hlen, (Host.Outcome.next.inj h).symm⟩
    · rw [load_of_gt cfg draws (by omega)] at h
      cases h

/-- Memory after a load: the font, the program from 0x200, and zeros. -/
theorem load_byteAt (cfg : Config) (draws : Nat) {bs : List Byte} (h : bs.length ≤ 3584) (a : Nat) :
    (placeBytes (initial cfg draws) 0x200 bs).byteAt a =
      if h : a < 80 then cfg.font[a] else if h : 0x200 ≤ a ∧ a - 0x200 < bs.length then bs[a - 0x200] else 0 := by
  rw [placeBytes_byteAt (initial_canonical cfg draws) (by omega), initial_byteAt]
  by_cases hfont : a < 80
  · rw [if_pos (by omega), dif_pos hfont, dif_pos hfont]
  rw [dif_neg hfont, dif_neg hfont]
  by_cases hlow : a < 0x200
  · rw [if_pos hlow, dif_neg (by omega)]
  rw [if_neg hlow]
  by_cases hprog : a - 0x200 < bs.length
  · rw [dif_pos ⟨by omega, hprog⟩, List.getElem?_eq_getElem hprog, Option.getD_some]
  · rw [dif_neg (by omega), List.getElem?_eq_none (by omega), Option.getD_none]

theorem load_reservedIntact {cfg : Config} {draws : Nat} {bytes : Option (List Byte)} {t : State}
    (h : load cfg draws bytes = .next t) : ReservedIntact t := by
  obtain ⟨bs, -, hlen, rfl⟩ := load_next h
  intro _ a ha
  rw [load_byteAt cfg draws hlen, placeBytes_fields, dif_neg (c := 0x200 ≤ a ∧ _) (by omega)]
  rfl

/-- Settles O19: over the transactions; a load puts the font and zeros there, a store that completes lies above the
region, and nothing else writes memory. -/
theorem reservedRegionKept : Obligations.ReservedRegionKept := by
  unfold Obligations.ReservedRegionKept
  intro s t tr hm hs h
  cases tr with
  | load bytes => exact load_reservedIntact h
  | step => exact step_reservedIntact hm hs h
  | keyEvent k =>
    cases h
    unfold keyEvent
    cases s.mode <;> exact hs.congr rfl fun _ _ _ => rfl
  | stop =>
    cases h
    unfold stop
    cases s.mode <;> exact hs.congr rfl fun _ _ _ => rfl
  | setKey _ _ | readDisplay | takeDirty | readStatus => cases h; exact hs.congr rfl fun _ _ _ => rfl

/-- Settles O4: a load changes the initial state's memory alone, and that memory is read byte by byte. -/
theorem loadGivesResetState : Obligations.LoadGivesResetState := by
  unfold Obligations.LoadGivesResetState
  intro cfg draws bytes hlen
  refine ⟨_, load_of_le cfg draws hlen, fun a _ => load_byteAt cfg draws hlen a, ?_⟩
  rw [placeBytes_fields]
  refine ⟨fun r => ?_, rfl, rfl, rfl, fun j => ?_, rfl, rfl, fun p _ => pixel_blankDisplay p, rfl, fun k => ?_, rfl, rfl⟩
  · exact Vector.getElem_replicate _
  · exact Vector.getElem_replicate _
  · exact Vector.getElem_replicate _

/-- Settles O6: the reset state is the initial state under the default parameters, whose memory lists no byte. -/
theorem invariantsAtReset : Obligations.InvariantsAtReset := by
  unfold Obligations.InvariantsAtReset
  refine ⟨initial_canonical defaultConfig 0, fun _ a _ => initial_byteAt defaultConfig 0 a, by decide, fun j => ?_⟩
  have hslot : State.reset.stack[j.val] = 0 := Vector.getElem_replicate _
  rw [hslot]
  decide

end Sys2Proof.Machine
end

section
/-! SUPPORT. The write tables of 10_state.md R23-R40, the timers and the mode over a step, and what a program cannot observe. -/

namespace Sys2Proof.Machine

/-! ### The general registers (R23) -/

theorem memReadBytes_length {s : State} {a n : Nat} {bs : List Byte} (h : memReadBytes s a n = .ok bs) :
    bs.length = n := by
  by_cases hin : a + n ≤ 0x1000 ∨ n = 0
  · rw [memReadBytes_ok hin] at h
    cases h
    simp
  · rw [memReadBytes_bounds (by omega) (by omega)] at h
    cases h

/-- A shift leaves every register but `V[x]` and `VF`, under each `P_VF_ORDER`. -/
theorem getV_writeShift_of_ne (s : State) {x r : Reg} (shift : Byte → Byte) (flag : Byte) (hx : r ≠ x)
    (hflag : r ≠ flagReg) : (writeShift s x shift flag).getV r = s.getV r := by
  unfold writeShift
  cases s.cfg.vfOrder <;> simp [hx, hflag]

/-- A register load from a list of `x + 1` bytes leaves the registers above `V[x]`. -/
theorem getV_loadV_of_gt (s : State) {x r : Reg} {bs : List Byte} (hlen : bs.length = x.val + 1) (hr : x.val < r.val) :
    (s.loadV bs).getV r = s.getV r := by
  rw [State.getV_loadV, List.getElem?_eq_none (by omega), Option.getD_none]

/-- Settles O15: an instruction that writes no register keeps `V`; each of the others writes those of its row. -/
theorem registerWriteTable : Obligations.RegisterWriteTable := by
  unfold Obligations.RegisterWriteTable
  intro i s t h r hr
  by_cases hv : .v ∈ writtenFields i
  · by_cases hf : FaultTaken s t
    · obtain ⟨f, op, rfl⟩ := hf
      rfl
    cases i with
    | ldImm x _ | addImm x _ | ldReg x _ | orReg x _ | andReg x _ | xorReg x _ | ldVxDt x | rnd x _ =>
      cases h
      exact State.getV_setV_of_ne _ _ (by simpa [writesReg] using hr)
    | addReg x y | sub x y | subn x y =>
      cases h
      obtain ⟨hx, hflag⟩ : r ≠ x ∧ r ≠ flagReg := by simpa [writesReg, flagReg] using hr
      rw [getV_writeResultFlag, if_neg hflag, if_neg hx]
      rfl
    | shr x y | shl x y =>
      cases h
      obtain ⟨hx, hflag⟩ : r ≠ x ∧ r ≠ flagReg := by simpa [writesReg, flagReg] using hr
      exact getV_writeShift_of_ne _ _ _ hx hflag
    | drw x y n =>
      obtain ⟨rows, rfl⟩ := execDrw_completes hf h
      exact State.getV_setV_of_ne (advance s) _ (by simpa [writesReg, flagReg] using hr)
    | ldVxMem x =>
      obtain ⟨bs, hb, rfl⟩ := execLdVxMem_completes hf h
      exact getV_loadV_of_gt (advance s) (memReadBytes_length hb) (by simpa [writesReg] using hr)
    | _ => simp [writtenFields] at hv
  · have hkeep : t.v = s.v := exec_keepsField (f := .v) h (by decide) (by decide) hv
    simp only [State.getV, hkeep]

/-! ### The other fields (R24-R40) -/

/-- Only Fx0A enters `AwaitKey` (R39). -/
theorem exec_awaitKey {i : Instr} {s t : State} {x : Reg} (h : exec i s = .next t) (hm : t.mode = .awaitKey x) :
    i = .ldVxK x ∨ s.mode = .awaitKey x := by
  obtain ⟨u, hu, hcases⟩ := exec_cases i s
  obtain rfl : u = t := Host.Outcome.next.inj (hu.symm.trans h)
  rcases hcases with ⟨f, rfl, -⟩ | ⟨y, rfl, rfl⟩ | hkeep
  · cases hm
  · cases hm
    exact .inl rfl
  · exact .inr (hkeep ▸ hm)

section
variable {i : Instr} {s t : State} (h : exec i s = .next t)
include h

theorem exec_i (h1 : ∀ nnn, i ≠ .ldI nnn) (h2 : ∀ x, i ≠ .addIVx x) (h3 : ∀ x, i ≠ .ldFVx x) : t.i = s.i := by
  refine exec_keepsField h (f := .i) (by decide) (by decide) ?_
  cases i <;> simp_all [writtenFields]

theorem exec_sp (h1 : ∀ nnn, i ≠ .call nnn) (h2 : i ≠ .ret) : t.sp = s.sp := by
  refine exec_keepsField h (f := .sp) (by decide) (by decide) ?_
  cases i <;> simp_all [writtenFields]

theorem exec_stack (h1 : ∀ nnn, i ≠ .call nnn) : t.stack = s.stack := by
  refine exec_keepsField h (f := .stack) (by decide) (by decide) ?_
  cases i <;> simp_all [writtenFields]

theorem exec_dt (h1 : ∀ x, i ≠ .ldDtVx x) : t.dt = s.dt := by
  refine exec_keepsField h (f := .dt) (by decide) (by decide) ?_
  cases i <;> simp_all [writtenFields]

theorem exec_st (h1 : ∀ x, i ≠ .ldStVx x) : t.st = s.st := by
  refine exec_keepsField h (f := .st) (by decide) (by decide) ?_
  cases i <;> simp_all [writtenFields]

theorem exec_disp (h1 : i ≠ .cls) (h2 : ∀ x y n, i ≠ .drw x y n) : t.disp = s.disp := by
  refine exec_keepsField h (f := .disp) (by decide) (by decide) ?_
  cases i <;> simp_all [writtenFields]

theorem exec_dirty (h1 : i ≠ .cls) (h2 : ∀ x y n, i ≠ .drw x y n) : t.dirty = s.dirty := by
  refine exec_keepsField h (f := .dirty) (by decide) (by decide) ?_
  cases i <;> simp_all [writtenFields]

theorem exec_draws (h1 : ∀ x kk, i ≠ .rnd x kk) : t.draws = s.draws := by
  refine exec_keepsField h (f := .draws) (by decide) (by decide) ?_
  cases i <;> simp_all [writtenFields]

theorem exec_key : t.key = s.key := by
  refine exec_keepsField h (f := .key) (by decide) (by decide) ?_
  cases i <;> simp_all [writtenFields]

end

/-- Settles O16: the conjunction of the rules above, one per field. -/
theorem stateWriteTable : Obligations.StateWriteTable := by
  unfold Obligations.StateWriteTable
  intro i s t h
  exact ⟨exec_i h, exec_sp h, exec_stack h, exec_dt h, exec_st h,
    fun h1 h2 => ⟨exec_disp h h1 h2, exec_dirty h h1 h2⟩, exec_draws h, fun _ => exec_awaitKey h, exec_key h, exec_cfg h⟩

/-! ### The timers over a step (R35) -/

/-- Settles O10: the step ran an instruction, which kept the timer unless it writes it, and then ticked. -/
theorem timersCountDown : Obligations.TimersCountDown := by
  unfold Obligations.TimersCountDown
  intro s t hm h hnf
  rcases step_cases h with ⟨hend, -⟩ | ⟨⟨x, hx⟩, -⟩ | ⟨-, -, rfl⟩ |
    ⟨-, -, op, hop, ⟨r, -, rfl⟩ | ⟨i, u, hd, hu, rfl⟩⟩
  · rcases hend with hend | ⟨info, hend⟩ <;> rw [hm] at hend <;> cases hend
  · rw [hm] at hx; cases hx
  · cases hnf
  · cases hnf
  · rw [fetch_pc_eq_wordAtPc hop] at hd
    rw [NotFaulted, endStep_mode] at hnf
    have htick : endStep u = tick u := by simp [endStep, hnf]
    rw [htick, hd]
    constructor
    · intro hne
      rw [← exec_dt hu fun x hx => hne x (by rw [hx])]
      exact countDown_toNat u.dt
    · intro hne
      rw [← exec_st hu fun x hx => hne x (by rw [hx])]
      exact countDown_toNat u.st

/-! ### The mode (R39) -/

/-- A step that changes the mode ran: it executed Fx0A, or it faulted. -/
theorem step_mode_change {s t : State} (h : step s = .next t) (hne : t.mode ≠ s.mode) :
    s.mode = .running ∧ ((∃ x, t.mode = .awaitKey x ∧ decode (wordAtPc s) = .ok (.ldVxK x)) ∨
      ∃ info, t.mode = .faulted info) := by
  rcases step_cases h with ⟨-, rfl⟩ | ⟨-, rfl⟩ | ⟨hm, -, rfl⟩ | ⟨hm, -, op, hop, ⟨r, -, rfl⟩ | ⟨i, u, hd, hu, rfl⟩⟩
  · exact absurd rfl hne
  · exact absurd (awaitStep_mode s) hne
  · exact ⟨hm, .inr ⟨_, rfl⟩⟩
  · exact ⟨hm, .inr ⟨_, rfl⟩⟩
  · rw [endStep_mode] at hne ⊢
    rw [fetch_pc_eq_wordAtPc hop] at hd
    obtain ⟨v, hv, hcases⟩ := exec_cases i s
    obtain rfl : v = u := Host.Outcome.next.inj (hv.symm.trans hu)
    rcases hcases with ⟨f, rfl, -⟩ | ⟨x, rfl, rfl⟩ | hkeep
    · exact ⟨hm, .inr ⟨_, rfl⟩⟩
    · exact ⟨hm, .inl ⟨x, rfl, hd⟩⟩
    · exact absurd hkeep hne

/-- Settles O14: over the transactions; only a step, a key event and a stop touch the mode. -/
theorem modeTransitions : Obligations.ModeTransitions := by
  unfold Obligations.ModeTransitions
  intro s t tr hload h hne
  cases tr with
  | load b => exact absurd rfl (hload b)
  | step =>
    obtain ⟨hm, ⟨x, hx⟩ | ⟨info, hinfo⟩⟩ := step_mode_change h hne
    · exact .inl ⟨hm, rfl, x, hx⟩
    · exact .inr (.inl ⟨hm, rfl, info, hinfo⟩)
  | keyEvent k =>
    cases h
    cases hm : s.mode with
    | awaitKey x => exact .inr (.inr (.inl ⟨⟨x, rfl⟩, ⟨k, rfl⟩, by simp [keyEvent, hm]⟩))
    | running | faulted _ | stopped => simp [keyEvent, hm] at hne
  | stop =>
    cases h
    cases hm : s.mode with
    | running => exact .inr (.inr (.inr ⟨.inl rfl, rfl, by simp [stop, hm]⟩))
    | awaitKey x => exact .inr (.inr (.inr ⟨.inr ⟨x, rfl⟩, rfl, by simp [stop, hm]⟩))
    | faulted _ | stopped => simp [stop, hm] at hne
  | setKey _ _ | readDisplay | takeDirty | readStatus => cases h; exact absurd rfl hne

end Sys2Proof.Machine
end

section
/-! SUPPORT. `Dirty` and `ST` are not observed (10_state.md R46, R34): every operation commutes with putting other values
in them. -/

namespace Sys2Proof.Machine

/-- `s` with other values of the two fields a program cannot observe. -/
def State.withUnseen (s : State) (d : Bool) (b : Byte) : State := { s with dirty := d, st := b }

section
variable (s : State) (d : Bool) (b : Byte)

@[simp] theorem State.withUnseen_cfg : (s.withUnseen d b).cfg = s.cfg := rfl
@[simp] theorem State.withUnseen_i : (s.withUnseen d b).i = s.i := rfl
@[simp] theorem State.withUnseen_pc : (s.withUnseen d b).pc = s.pc := rfl
@[simp] theorem indexAddress_withUnseen : indexAddress (s.withUnseen d b) = indexAddress s := rfl
@[simp] theorem State.getV_withUnseen (r : Reg) : (s.withUnseen d b).getV r = s.getV r := rfl

/-! ### The shared operations commute with it -/

@[simp] theorem advance_withUnseen : advance (s.withUnseen d b) = (advance s).withUnseen d b := rfl

theorem skipIf_withUnseen (c : Bool) : skipIf c (s.withUnseen d b) = (skipIf c s).withUnseen d b := by
  cases c <;> rfl

theorem writeShift_withUnseen (x : Reg) (shift : Byte → Byte) (flag : Byte) :
    writeShift (s.withUnseen d b) x shift flag = (writeShift s x shift flag).withUnseen d b := by
  simp only [writeShift, State.withUnseen_cfg]
  cases s.cfg.vfOrder <;> rfl

theorem push_withUnseen (w : Word) : push (s.withUnseen d b) w = (push s w).map (·.withUnseen d b) := by
  by_cases h : s.sp.val < 16
  · have hp : push s w = .ok _ := dif_pos h
    rw [hp]
    exact dif_pos h
  · have hp : push s w = .error _ := dif_neg h
    rw [hp]
    exact dif_neg h

theorem pop_withUnseen :
    pop (s.withUnseen d b) = (pop s).map fun p => (p.1, p.2.withUnseen d b) := by
  by_cases h : 0 < s.sp.val
  · have hp : pop s = .ok _ := dif_pos h
    rw [hp]
    exact dif_pos h
  · have hp : pop s = .error _ := dif_neg h
    rw [hp]
    exact dif_neg h

theorem keyOperand_withUnseen (x : Reg) : keyOperand (s.withUnseen d b) x = keyOperand s x := rfl

theorem memReadBytes_withUnseen (a n : Nat) : memReadBytes (s.withUnseen d b) a n = memReadBytes s a n := by
  induction n generalizing a with
  | zero => rfl
  | succ n ih =>
    simp only [memReadBytes, ih]
    rfl

theorem memWrite_withUnseen (a : Nat) (c : Byte) :
    memWrite (s.withUnseen d b) a c = (memWrite s a c).map (·.withUnseen d b) := by
  rcases memWrite_cases s a c with ⟨ha, h⟩ | ⟨hr, ha, h⟩ | ⟨ha, hr, h⟩ <;> rw [h]
  · exact if_pos ha
  · exact (if_neg (by omega)).trans (if_pos ⟨hr, ha⟩)
  · refine (if_neg (by omega)).trans (if_neg fun hres => ?_)
    rcases hr with hr | hr
    · cases hr.symm.trans hres.1
    · exact absurd hr (Nat.not_lt.2 hres.2)

theorem memWriteBytes_withUnseen (a : Nat) (bs : List Byte) :
    memWriteBytes (s.withUnseen d b) a bs = (memWriteBytes s a bs).map (·.withUnseen d b) := by
  induction bs generalizing s a with
  | nil => rfl
  | cons c bs ih =>
    simp only [memWriteBytes, memWrite_withUnseen]
    cases memWrite s a c with
    | error f => rfl
    | ok t => exact ih t (a + 1)

end

/-- Instructions whose effects correspond have corresponding outcomes, the fault included. -/
theorem conclude_withUnseen {s t : State} {i : Instr} {r r' : Except Trap State} {d : Bool} {b : Byte}
    (h : conclude s i r = .next t) (hr : r' = r.map (·.withUnseen d b)) :
    conclude (s.withUnseen d b) i r' = .next (t.withUnseen d b) := by
  subst hr
  cases r <;> cases h <;> rfl

/-! ### Instructions and steps -/

/-- An instruction does the same whatever the unseen fields hold. -/
theorem exec_withUnseen {i : Instr} {s t : State} (h : exec i s = .next t) (d : Bool) (b : Byte) :
    ∃ d' b', exec i (s.withUnseen d b) = .next (t.withUnseen d' b') := by
  cases i with
  | cls => cases h; exact ⟨true, b, rfl⟩
  | ldStVx x => cases h; exact ⟨d, s.getV x, rfl⟩
  | drw x y n =>
    simp only [exec, execDrw] at h ⊢
    rw [advance_withUnseen, memReadBytes_withUnseen, indexAddress_withUnseen]
    cases hr : memReadBytes (advance s) (indexAddress s) n.toNat with
    | error f => rw [hr] at h; cases h; exact ⟨d, b, rfl⟩
    | ok rows => rw [hr] at h; cases h; exact ⟨true, b, rfl⟩
  | ret =>
    refine ⟨d, b, conclude_withUnseen h ?_⟩
    rw [advance_withUnseen, pop_withUnseen]
    cases pop (advance s) <;> rfl
  | sys nnn =>
    refine ⟨d, b, conclude_withUnseen h ?_⟩
    rw [State.withUnseen_cfg]
    cases s.cfg.sysPolicy <;> rfl
  | call nnn =>
    refine ⟨d, b, conclude_withUnseen h ?_⟩
    rw [advance_withUnseen, push_withUnseen, State.withUnseen_pc]
    cases push (advance s) (advance s).pc <;> rfl
  | skp x =>
    refine ⟨d, b, conclude_withUnseen h ?_⟩
    rw [keyOperand_withUnseen]
    cases keyOperand s x with
    | error f => rfl
    | ok k => exact congrArg Except.ok (skipIf_withUnseen (advance s) d b _)
  | sknp x =>
    refine ⟨d, b, conclude_withUnseen h ?_⟩
    rw [keyOperand_withUnseen]
    cases keyOperand s x with
    | error f => rfl
    | ok k => exact congrArg Except.ok (skipIf_withUnseen (advance s) d b _)
  | ldVxK x =>
    refine ⟨d, b, conclude_withUnseen h ?_⟩
    rw [State.withUnseen_cfg]
    cases s.cfg.waitPolicy <;> rfl
  | addIVx x =>
    refine ⟨d, b, conclude_withUnseen h ?_⟩
    rw [State.withUnseen_i, State.getV_withUnseen]
    split <;> rfl
  | ldBVx x | ldMemVx x => exact ⟨d, b, conclude_withUnseen h (memWriteBytes_withUnseen (advance s) d b _ _)⟩
  | ldVxMem x =>
    refine ⟨d, b, conclude_withUnseen h ?_⟩
    rw [advance_withUnseen, memReadBytes_withUnseen, indexAddress_withUnseen]
    cases memReadBytes (advance s) (indexAddress s) (x.val + 1) <;> rfl
  | seImm x kk | sneImm x kk | seReg x y | sneReg x y =>
    cases h; exact ⟨d, b, congrArg Host.Outcome.next (skipIf_withUnseen (advance s) d b _)⟩
  | shr x y | shl x y => cases h; exact ⟨d, b, congrArg Host.Outcome.next (writeShift_withUnseen (advance s) d b _ _ _)⟩
  | jp _ | ldImm _ _ | addImm _ _ | ldReg _ _ | orReg _ _ | andReg _ _ | xorReg _ _ | addReg _ _ | sub _ _ | subn _ _
  | ldI _ | jpV0 _ | rnd _ _ | ldVxDt _ | ldDtVx _ | ldFVx _ => cases h; exact ⟨d, b, rfl⟩

theorem endStep_withUnseen (t : State) (d : Bool) (b : Byte) :
    ∃ b', endStep (t.withUnseen d b) = (endStep t).withUnseen d b' := by
  rcases endStep_cases t with ⟨hm, h⟩ | ⟨hm, h⟩ <;> rw [h]
  · exact ⟨b, if_pos hm⟩
  · exact ⟨countDown b, if_neg (Bool.eq_false_iff.1 hm)⟩

theorem awaitStep_withUnseen (s : State) (d : Bool) (b : Byte) :
    ∃ b', awaitStep (s.withUnseen d b) = (awaitStep s).withUnseen d b' := by
  simp only [awaitStep, State.withUnseen_cfg]
  cases s.cfg.awaitTimers
  · exact ⟨b, rfl⟩
  · exact ⟨countDown b, rfl⟩

/-- Settles O21: the fetch reads neither field, and each case of the step commutes with putting other values in them. -/
theorem dirtyAndSoundUnobserved : Obligations.DirtyAndSoundUnobserved := by
  unfold Obligations.DirtyAndSoundUnobserved
  intro s t d b h
  change ∃ d' b', step (s.withUnseen d b) = .next (t.withUnseen d' b')
  rcases step_cases h with ⟨hm | ⟨info, hm⟩, rfl⟩ | ⟨⟨x, hm⟩, rfl⟩ | ⟨hm, hpc, rfl⟩ |
    ⟨hm, -, op, hop, ⟨r, hd, rfl⟩ | ⟨i, u, hd, hu, rfl⟩⟩
  · exact ⟨d, b, step_of_stopped hm⟩
  · exact ⟨d, b, step_of_faulted hm⟩
  · obtain ⟨b', ha⟩ := awaitStep_withUnseen s d b
    exact ⟨d, b', ha ▸ step_of_awaitKey hm⟩
  · exact ⟨d, b, step_of_fetch_error hm (fetch_of_gt hpc)⟩
  · exact ⟨d, b, step_of_decode_error hm hop hd⟩
  · obtain ⟨d', b', hu'⟩ := exec_withUnseen hu d b
    obtain ⟨b'', he⟩ := endStep_withUnseen u d' b'
    exact ⟨d', b'', he ▸ step_of_exec hm hop hd hu'⟩

end Sys2Proof.Machine
end

section
/-! SUPPORT. Memory over the transactions (20_memory.md): which bytes an instruction stores, how a store faults, and that
the canonical form is kept. -/

namespace Sys2Proof.Machine

/-! ### The list of cells after an instruction -/

@[simp] theorem skipIf_mem (c : Bool) (s : State) : (skipIf c s).mem = s.mem := by
  rw [skipIf_eq]

@[simp] theorem writeShift_mem (s : State) (x : Reg) (shift : Byte → Byte) (flag : Byte) :
    (writeShift s x shift flag).mem = s.mem := by
  rw [writeShift_fields]

/-- An instruction that stores nothing leaves the list of cells itself, not only the bytes it reads as. -/
theorem exec_mem_eq {i : Instr} {s t : State} (h : exec i s = .next t) (hw : .mem ∉ writtenFields i) :
    t.mem = s.mem := by
  by_cases hf : FaultTaken s t
  · obtain ⟨f, op, rfl⟩ := hf
    rfl
  cases i with
  | ret => obtain ⟨_, n, rfl⟩ := execRet_completes hf h; rfl
  | call nnn => obtain ⟨j, n, rfl⟩ := execCall_completes hf h; rfl
  | sys nnn => rw [execSys_completes hf h]; rfl
  | ldVxK x => rw [execLdVxK_completes hf h]; rfl
  | addIVx x => obtain ⟨w, rfl⟩ := execAddIVx_completes hf h; rfl
  | drw x y n => obtain ⟨rows, rfl⟩ := execDrw_completes hf h; rfl
  | ldVxMem x => obtain ⟨bs, -, rfl⟩ := execLdVxMem_completes hf h; rfl
  | skp x => obtain ⟨c, rfl⟩ := execSkp_completes hf h; exact skipIf_mem c _
  | sknp x => obtain ⟨c, rfl⟩ := execSknp_completes hf h; exact skipIf_mem c _
  | seImm x kk | sneImm x kk | seReg x y | sneReg x y => cases h; exact skipIf_mem _ _
  | shr x y | shl x y => cases h; exact writeShift_mem _ _ _ _
  | ldBVx x | ldMemVx x => simp [writtenFields] at hw
  | cls | jp _ | ldImm _ _ | addImm _ _ | ldReg _ _ | orReg _ _ | andReg _ _ | xorReg _ _ | addReg _ _ | sub _ _
  | subn _ _ | ldI _ | jpV0 _ | rnd _ _ | ldVxDt _ | ldDtVx _ | ldStVx _ | ldFVx _ => cases h; rfl

/-! ### The canonical form (R60, log 8) -/

/-- The form depends on the list of cells and the parameters alone. -/
theorem MemoryCanonical.congr {s t : State} (hs : MemoryCanonical s) (hmem : t.mem = s.mem) (hcfg : t.cfg = s.cfg) :
    MemoryCanonical t := by
  rw [MemoryCanonical, hmem, hcfg]
  exact hs

theorem exec_canonical {i : Instr} {s t : State} (hs : MemoryCanonical s) (h : exec i s = .next t) :
    MemoryCanonical t := by
  by_cases hstore : .mem ∈ writtenFields i
  · by_cases hf : FaultTaken s t
    · obtain ⟨f, op, rfl⟩ := hf
      exact hs.congr rfl rfl
    cases i with
    | ldBVx x | ldMemVx x => exact memWriteBytes_wf (s := advance s) hs (conclude_completes hf h)
    | _ => simp [writtenFields] at hstore
  · exact hs.congr (exec_mem_eq h hstore) (exec_cfg h)

theorem endStep_canonical {t : State} (ht : MemoryCanonical t) : MemoryCanonical (endStep t) := by
  rcases endStep_cases t with ⟨-, h⟩ | ⟨-, h⟩ <;> rw [h]
  · exact ht
  · exact ht.congr rfl rfl

theorem step_canonical {s t : State} (hs : MemoryCanonical s) (h : step s = .next t) : MemoryCanonical t := by
  rcases step_cases h with ⟨-, rfl⟩ | ⟨-, rfl⟩ | ⟨-, -, rfl⟩ | ⟨-, -, op, -, ⟨r, -, rfl⟩ | ⟨i, u, -, hu, rfl⟩⟩
  · exact hs
  · rcases awaitStep_cases s with ha | ha <;> rw [ha]
    · exact hs
    · exact hs.congr rfl rfl
  · exact hs.congr rfl rfl
  · exact hs.congr rfl rfl
  · exact endStep_canonical (exec_canonical hs hu)

/-- Program bytes placed inside memory keep the form. -/
theorem placeBytes_canonical {s : State} {a : Nat} {bs : List Byte} (hs : MemoryCanonical s)
    (ha : a + bs.length ≤ 4096) : MemoryCanonical (placeBytes s a bs) := by
  induction bs generalizing s a with
  | nil => exact hs
  | cons b bs ih =>
    rw [List.length_cons] at ha
    exact ih (State.wf_putByte hs (by omega) b) (by omega)

theorem load_canonical {cfg : Config} {draws : Nat} {bytes : Option (List Byte)} {t : State}
    (h : load cfg draws bytes = .next t) : MemoryCanonical t := by
  obtain ⟨bs, -, hlen, rfl⟩ := load_next h
  exact placeBytes_canonical (initial_canonical cfg draws) (by omega)

/-- Settles O18: over the transactions; a load places its bytes into the empty list, the stores of a step keep the form,
and nothing else touches the list. -/
theorem memoryCanonicalKept : Obligations.MemoryCanonicalKept := by
  unfold Obligations.MemoryCanonicalKept
  intro s t tr hs h
  cases tr with
  | load bytes => exact load_canonical h
  | step => exact step_canonical hs h
  | keyEvent k =>
    cases h
    unfold keyEvent
    cases s.mode <;> exact hs.congr rfl rfl
  | stop =>
    cases h
    unfold stop
    cases s.mode <;> exact hs.congr rfl rfl
  | setKey _ _ | readDisplay | takeDirty | readStatus => cases h; exact hs.congr rfl rfl

/-! ### The bytes an instruction stores (R69) -/

/-- Stores leave every byte outside their range. -/
theorem memWriteBytes_keepsBytesBut {s t : State} {a : Nat} {bs : List Byte} (hs : MemoryCanonical s)
    (h : memWriteBytes s a bs = .ok t) : KeepsBytesBut a bs.length s t := by
  intro c hc
  rw [memWriteBytes_byteAt hs h]
  rcases hc with hc | hc
  · rw [if_pos hc]
  · rw [if_neg (by omega), List.getElem?_eq_none (by omega), Option.getD_none]

/-- Settles O17: memory is as it was, or what `storeCount` bytes stored from `I` up leave. -/
theorem memoryWriteTable : Obligations.MemoryWriteTable := by
  unfold Obligations.MemoryWriteTable
  intro i s t hs h
  rcases exec_mem_cases h with hkeep | ⟨bs, hlen, hw⟩
  · exact fun a _ => hkeep a
  · rw [← hlen]
    exact memWriteBytes_keepsBytesBut (s := advance s) hs hw

/-! ### The stores that fault (R65, R66, R266) -/

section
variable {s : State} {bs : List Byte} (i : Instr) (hbs : bs ≠ [])
include hbs

theorem conclude_memWriteBytes_reserved (hr : s.cfg.reservedWrite = .fault) (ha : s.i.toNat ≤ 0x1FF) :
    conclude s i (memWriteBytes (advance s) (indexAddress s) bs) =
      .next (faultedWith s .reservedWrite (some (encode i)) (.address s.i.toNat)) := by
  obtain ⟨b, bs, rfl⟩ := List.exists_cons_of_ne_nil hbs
  rw [memWriteBytes_reserved (s := advance s) (a := indexAddress s) hr ha]
  rfl

theorem conclude_memWriteBytes_bounds (hlow : 0x1FF < s.i.toNat) (ha : 0x1000 < s.i.toNat + bs.length) :
    conclude s i (memWriteBytes (advance s) (indexAddress s) bs) =
      .next (faultedWith s .memBounds (some (encode i)) (.address (max s.i.toNat 0x1000))) := by
  rw [memWriteBytes_bounds (s := advance s) (a := indexAddress s) (.inr hlow) ha hbs]
  rfl

end

theorem bcdDigits_ne_nil (b : Byte) : bcdDigits b ≠ [] := List.cons_ne_nil _ _

theorem dumpBytes_ne_nil (s : State) (x : Reg) : dumpBytes s x ≠ [] :=
  List.ne_nil_of_length_pos (by rw [dumpBytes_length]; omega)

/-- Settles O43: both instructions store at least one byte, so where `I` is reserved the first access fails; and at most
16 bytes reach 0x1000 only from an `I` above the reserved region. -/
theorem storeFaults : Obligations.StoreFaults := by
  unfold Obligations.StoreFaults
  intro x s
  refine ⟨fun hr ha => ⟨?_, ?_⟩, fun ha => ?_, fun ha => ?_⟩
  · exact conclude_memWriteBytes_reserved (.ldBVx x) (bcdDigits_ne_nil _) hr ha
  · exact conclude_memWriteBytes_reserved (.ldMemVx x) (dumpBytes_ne_nil s x) hr ha
  · have hlen : (bcdDigits (s.getV x)).length = 3 := rfl
    exact conclude_memWriteBytes_bounds (.ldBVx x) (bcdDigits_ne_nil _) (by omega) (by omega)
  · have hlen := dumpBytes_length s x
    exact conclude_memWriteBytes_bounds (.ldMemVx x) (dumpBytes_ne_nil s x) (by omega) (by omega)

/-! ### What a dump stores is what a fetch reads (R62, R77) -/

theorem not_faultTaken {s t : State} (h : ¬ t.mode.isFaulted) : ¬ FaultTaken s t := by
  rintro ⟨f, op, rfl⟩
  exact h rfl

/-- Stores that complete lie inside memory. -/
theorem memWriteBytes_ok_le {s t : State} {a : Nat} {bs : List Byte} (h : memWriteBytes s a bs = .ok t) :
    bs = [] ∨ a + bs.length ≤ 0x1000 := by
  induction bs generalizing s a with
  | nil => exact .inl rfl
  | cons b bs ih =>
    simp only [memWriteBytes] at h
    split at h
    · cases h
    · next u hu =>
      obtain ⟨-, ha, -⟩ := memWrite_ok hu
      rw [List.length_cons]
      rcases ih h with rfl | hle
      · exact .inr (by rw [List.length_nil]; omega)
      · exact .inr (by omega)

section
variable {x : Reg} {s t : State} (hf : ¬ FaultTaken s t) (h : exec (.ldMemVx x) s = .next t)
include hf h

/-- A dump that completes ends inside memory. -/
theorem execLdMemVx_le : s.i.toNat + x.val ≤ 0xFFF := by
  have hlen := dumpBytes_length s x
  rcases memWriteBytes_ok_le (conclude_completes hf h) with hnil | hle
  · exact absurd hnil (dumpBytes_ne_nil s x)
  · change s.i.toNat + _ ≤ _ at hle
    omega

/-- The bytes a dump leaves are the registers (42_index_memory.md R185). -/
theorem execLdMemVx_byteAt (hs : MemoryCanonical s) {r : Reg} (hr : r.val ≤ x.val) :
    t.byteAt (s.i.toNat + r.val) = s.getV r := by
  rw [memWriteBytes_byteAt (s := advance s) hs (conclude_completes hf h), indexAddress, if_neg (by omega),
    Nat.add_sub_cancel_left, dumpBytes_getElem? s x r hr, Option.getD_some]

end

/-- Settles O46: a dump that completes ends inside memory, so both bytes are fetched, and each is its register. -/
theorem storedCodeIsFetched : Obligations.StoredCodeIsFetched := by
  unfold Obligations.StoredCodeIsFetched
  intro x s t r a hs h hnf hr ha
  have hf : ¬ FaultTaken s t := not_faultTaken hnf
  have hend := execLdMemVx_le hf h
  have hhigh : t.byteAt a.toNat = s.getV ⟨r.val, by omega⟩ := by
    rw [ha]
    exact execLdMemVx_byteAt hf h hs (r := ⟨r.val, by omega⟩) (Nat.le_of_lt hr)
  have hlow : t.byteAt (a.toNat + 1) = s.getV ⟨r.val + 1, by omega⟩ := by
    rw [ha, Nat.add_assoc]
    exact execLdMemVx_byteAt hf h hs (r := ⟨r.val + 1, by omega⟩) hr
  rw [fetch_of_le (by omega), hhigh, hlow]
  rfl

/-! ### A fetch outside memory (R63) -/

/-- Settles O7: the fetch fails, and the step takes its fault. -/
theorem fetchOutsideMemoryFaults : Obligations.FetchOutsideMemoryFaults := by
  unfold Obligations.FetchOutsideMemoryFaults
  intro s hm hpc
  exact step_of_fetch_error hm (fetch_of_gt hpc)

end Sys2Proof.Machine
end

section
/-! SUPPORT. The encoding (30_encoding.md R91, R94): the decoder and the encoder are inverse to each other on the
well-formed instructions. -/

namespace Sys2Proof

/-! ### Reading back an encoded word -/

/-- Address forms of one top nibble differ where their addresses do. -/
theorem encodeNnn_injective (o : Nibble) : Function.Injective (encodeNnn o) :=
  Function.LeftInverse.injective (fieldNnn_encodeNnn o)

/-- The system-call space is `0nnn` without CLS and RET (40_control_flow.md R129). -/
theorem wellFormed_sys (nnn : Addr) : (Instr.sys nnn).wellFormed = true ↔ nnn ≠ 0x0E0 ∧ nnn ≠ 0x0EE := by
  simp [Instr.wellFormed]

/-- CLS and RET are the words `0nnn` of two addresses, so a system call of any other address is neither. -/
theorem decode_encodeNnn_zero {nnn : Addr} (hcls : nnn ≠ 0x0E0) (hret : nnn ≠ 0x0EE) :
    decode (encodeNnn 0x0 nnn) = .ok (.sys nnn) := by
  have hclsWord : encodeNnn 0x0 nnn ≠ 0x00E0#16 := (encodeNnn_injective 0x0).ne hcls
  have hretWord : encodeNnn 0x0 nnn ≠ 0x00EE#16 := (encodeNnn_injective 0x0).ne hret
  rw [decode_group0 (by simp), if_neg hclsWord, if_neg hretWord, fieldNnn_encodeNnn]

/-- By the instruction's group: the fields of its word are its operands and the fixed nibbles the decoder looks at. -/
theorem decode_encode {i : Instr} (h : i.wellFormed = true) : decode (encode i) = .ok i := by
  cases i with
  | cls | ret => rfl
  | sys nnn =>
    obtain ⟨hcls, hret⟩ := (wellFormed_sys nnn).mp h
    exact decode_encodeNnn_zero hcls hret
  | jp | call | ldI | jpV0 => simp [encode, decode_group1, decode_group2, decode_groupA, decode_groupB]
  | seImm | sneImm | ldImm | addImm | rnd =>
    simp [encode, decode_group3, decode_group4, decode_group6, decode_group7, decode_groupC]
  | seReg | sneReg | drw => simp [encode, decode_group5, decode_group9, decode_groupD]
  | ldReg | orReg | andReg | xorReg | addReg | sub | shr | subn | shl => simp [encode, decode_group8, decodeGroup8]
  | skp | sknp => simp [encode, decode_groupE, decodeGroupE]
  | ldVxDt | ldVxK | ldDtVx | ldStVx | addIVx | ldFVx | ldBVx | ldMemVx | ldVxMem =>
    simp [encode, decode_groupF, decodeGroupF]

/-- Settles O2: group by group, the decoder reads the encoder's fields back. -/
theorem decodeOfEncode : Obligations.DecodeOfEncode := by
  unfold Obligations.DecodeOfEncode
  exact fun _ => decode_encode

/-! ### Writing a decoded word again: a word is its fields, the fixed ones given by their values -/

section
variable {op : Opcode} {o : Nibble} (hO : (fieldO op).toNat = o.toNat)
include hO

theorem encodeNnn_of_fieldO : encodeNnn o (fieldNnn op) = op := by
  obtain rfl := BitVec.eq_of_toNat_eq hO
  exact encodeNnn_fields op

theorem encodeXkk_of_fields {kk : Byte} (hkk : (fieldKk op).toNat = kk.toNat) : encodeXkk o (fieldX op) kk = op := by
  obtain rfl := BitVec.eq_of_toNat_eq hO
  obtain rfl := BitVec.eq_of_toNat_eq hkk
  exact encodeXkk_fields op

theorem encodeXyn_of_fields {n : Nibble} (hn : (fieldN op).toNat = n.toNat) :
    encodeXyn o (fieldX op) (fieldY op) n = op := by
  obtain rfl := BitVec.eq_of_toNat_eq hO
  obtain rfl := BitVec.eq_of_toNat_eq hn
  exact encodeXyn_fields op

end

section
variable {op : Opcode} {i : Instr}

theorem encode_of_decode_group0 (hO : (fieldO op).toNat = 0) (h : decode op = .ok i) :
    encode i = op ∧ i.wellFormed = true := by
  rw [decode_group0 hO] at h
  split_ifs at h with hcls hret <;> cases h
  · exact ⟨hcls.symm, rfl⟩
  · exact ⟨hret.symm, rfl⟩
  · have hword : encodeNnn 0x0 (fieldNnn op) = op := encodeNnn_of_fieldO hO
    refine ⟨hword, (wellFormed_sys _).mpr ⟨fun heq => hcls ?_, fun heq => hret ?_⟩⟩
    · exact hword.symm.trans (congrArg (encodeNnn 0x0) heq)
    · exact hword.symm.trans (congrArg (encodeNnn 0x0) heq)

theorem encode_of_decodeGroup8 (hO : (fieldO op).toNat = 8) (h : decodeGroup8 op = .ok i) :
    encode i = op ∧ i.wellFormed = true := by
  unfold decodeGroup8 at h
  split at h <;> cases h
  all_goals next hn => exact ⟨encodeXyn_of_fields hO hn, rfl⟩

theorem encode_of_decodeGroupE (hO : (fieldO op).toNat = 14) (h : decodeGroupE op = .ok i) :
    encode i = op ∧ i.wellFormed = true := by
  unfold decodeGroupE at h
  split at h <;> cases h
  all_goals next hkk => exact ⟨encodeXkk_of_fields hO hkk, rfl⟩

theorem encode_of_decodeGroupF (hO : (fieldO op).toNat = 15) (h : decodeGroupF op = .ok i) :
    encode i = op ∧ i.wellFormed = true := by
  unfold decodeGroupF at h
  split at h <;> cases h
  all_goals next hkk => exact ⟨encodeXkk_of_fields hO hkk, rfl⟩

/-- By the top nibble: the decoder's equation for the group names the instruction, whose fixed fields are the word's. -/
theorem encode_of_decode (h : decode op = .ok i) : encode i = op ∧ i.wellFormed = true := by
  have hlt := fieldO_lt op
  match hO : (fieldO op).toNat with
  | 0 => exact encode_of_decode_group0 hO h
  | 1 | 2 | 10 | 11 =>
    simp only [decode_group1, decode_group2, decode_groupA, decode_groupB, hO] at h
    cases h
    exact ⟨encodeNnn_of_fieldO hO, rfl⟩
  | 3 | 4 | 6 | 7 | 12 =>
    simp only [decode_group3, decode_group4, decode_group6, decode_group7, decode_groupC, hO] at h
    cases h
    exact ⟨encodeXkk_of_fields hO rfl, rfl⟩
  | 5 | 9 =>
    simp only [decode_group5, decode_group9, hO] at h
    split_ifs at h with hn
    cases h
    exact ⟨encodeXyn_of_fields hO (congrArg BitVec.toNat hn), rfl⟩
  | 8 => exact encode_of_decodeGroup8 hO ((decode_group8 hO).symm.trans h)
  | 13 =>
    rw [decode_groupD hO] at h
    cases h
    exact ⟨encodeXyn_of_fields hO rfl, rfl⟩
  | 14 => exact encode_of_decodeGroupE hO ((decode_groupE hO).symm.trans h)
  | 15 => exact encode_of_decodeGroupF hO ((decode_groupF hO).symm.trans h)
  | n + 16 => omega

end

/-- Settles O3: by the top nibble, the fixed fields of the decoded instruction's word are the word's own. -/
theorem encodeOfDecode : Obligations.EncodeOfDecode := by
  unfold Obligations.EncodeOfDecode
  exact fun _ _ => encode_of_decode

/-! ### The words written out -/

/-- Settles O1: the decoder is run on each word, a group of the table at a time. -/
theorem sampleWordsDecode : Obligations.SampleWordsDecode := by
  unfold Obligations.SampleWordsDecode
  refine ⟨?_, ?_, ?_, ?_, ?_, ?_⟩ <;> decide

end Sys2Proof
end

section
/-! SUPPORT. Control transfer and skips (40_control_flow.md): the call stack's two operations where they complete, CALL and
RET in each case of `SP`, and what the jumps, the skips and the system-call space leave. -/

namespace Sys2Proof.Machine

/-! ### `PC` alone is written -/

theorem keepsAllBut_advance (s : State) : KeepsAllBut [.pc] s (advance s) :=
  (KeepsAllBut.refl _ s).setPc (by decide) _

/-- The width of a skip: the next instruction or the one after it (R120). -/
theorem skipIf_advance_pc (c : Bool) (s : State) :
    (skipIf c (advance s)).pc = if c then s.pc + 4 else s.pc + 2 := by
  cases c
  · rfl
  · exact BitVec.add_assoc s.pc 2 2

/-- Settles O23: the decoder reads the address back, and the target is that address widened. -/
theorem jumpTarget : Obligations.JumpTarget := by
  unfold Obligations.JumpTarget
  intro nnn s
  exact ⟨decode_encode (i := .jp nnn) rfl, _, rfl, zextAddr_toNat nnn, (keepsAllBut_advance s).setPc (by decide) _⟩

/-- Settles O24: the sum of a 12-bit address and a byte fits in 16 bits. -/
theorem indexedJumpTarget : Obligations.IndexedJumpTarget := by
  unfold Obligations.IndexedJumpTarget
  intro nnn s
  exact ⟨_, rfl, indexedTarget_toNat nnn s, (keepsAllBut_advance s).setPc (by decide) _⟩

/-- Settles O28: each comparison is the condition of one `skipIf`; SNE's is the negation of SE's. -/
theorem registerSkips : Obligations.RegisterSkips := by
  unfold Obligations.RegisterSkips
  intro x y kk s
  have frame (c : Bool) : KeepsAllBut [.pc] s (skipIf c (advance s)) := (keepsAllBut_advance s).skipIf (by decide) c
  refine ⟨⟨_, rfl, frame _, ?_⟩, ⟨_, rfl, frame _, ?_⟩, ⟨_, rfl, frame _, ?_⟩, ⟨_, rfl, frame _, ?_⟩⟩
  · simp [skipIf_advance_pc (s.getV x == kk)]
  · simp [skipIf_advance_pc (s.getV x != kk)]
  · simp [skipIf_advance_pc (s.getV x == s.getV y)]
  · simp [skipIf_advance_pc (s.getV x != s.getV y)]

/-! ### The system-call space (R129) -/

theorem execSys_of_nop {s : State} (h : s.cfg.sysPolicy = .nop) (nnn : Addr) : execSys nnn s = .next (advance s) := by
  simp [execSys, h]

theorem execSys_of_fault {s : State} (h : s.cfg.sysPolicy = .fault) (nnn : Addr) :
    execSys nnn s = .next (faultedWith s .decodeError (some (encode (.sys nnn))) .nothing) := by
  simp [execSys, h, takeFault_eq, faultedWith]

/-- Settles O29: one equation for each `P_SYS`. -/
theorem systemCallSpace : Obligations.SystemCallSpace := by
  unfold Obligations.SystemCallSpace
  intro nnn s
  exact ⟨fun h => ⟨_, execSys_of_nop h nnn, rfl, keepsAllBut_advance s⟩, fun h => execSys_of_fault h nnn⟩

/-! ### The call stack: where a push and a pop complete (10_state.md R29) -/

theorem push_of_lt {s : State} (h : s.sp.val < 16) (w : Word) :
    push s w = .ok ((s.setStack ⟨s.sp.val, h⟩ w).setSp ⟨s.sp.val + 1, by omega⟩) :=
  dif_pos h

theorem pop_of_succ {s : State} {j : Fin 16} (h : s.sp.val = j.val + 1) :
    pop s = .ok (s.stack[j.val], s.setSp j.castSucc) := by
  have hpos : 0 < s.sp.val := by omega
  have hpred : s.sp.val - 1 = j.val := by omega
  simp only [pop, dif_pos hpos, hpred]
  rfl

/-! ### CALL (R124, R257) -/

theorem execCall_of_lt {s : State} (h : s.sp.val < 16) (nnn : Addr) :
    execCall nnn s = .next ((((advance s).setStack ⟨s.sp.val, h⟩ (s.pc + 2)).setSp ⟨s.sp.val + 1, by omega⟩).setPc
      (zextAddr nnn)) := by
  have hpush := push_of_lt (s := advance s) h (advance s).pc
  simp only [execCall, hpush]
  rfl

theorem execCall_of_full {s : State} (h : s.sp.val = 16) (nnn : Addr) :
    execCall nnn s = .next (faultedWith s .stackOverflow (some (encode (.call nnn))) .nothing) := by
  have hpush := push_full (s := advance s) (w := (advance s).pc) h
  simp only [execCall, hpush]
  rfl

/-- Settles O25: a call below the limit writes the slot at `SP` alone; at the limit the push fails. -/
theorem callPushesReturnAddress : Obligations.CallPushesReturnAddress := by
  unfold Obligations.CallPushesReturnAddress
  intro nnn s
  refine ⟨decode_encode (i := .call nnn) rfl, fun hsp => ?_, fun hfull => execCall_of_full hfull nnn⟩
  refine ⟨_, execCall_of_lt hsp nnn, zextAddr_toNat nnn, rfl, ?_, fun j hj => ?_, ?_⟩
  · exact Vector.getElem_set_self hsp
  · exact Vector.getElem_set_ne hsp j.isLt hj.symm
  · have hadv : KeepsAllBut [.pc, .sp, .stack] s (advance s) := (KeepsAllBut.refl _ s).setPc (by decide) _
    exact ((hadv.setStack (by decide) _ _).setSp (by decide) _).setPc (by decide) _

/-! ### RET (R122, R258) -/

theorem execRet_of_succ {s : State} {j : Fin 16} (h : s.sp.val = j.val + 1) :
    execRet s = .next (((advance s).setSp j.castSucc).setPc s.stack[j.val]) := by
  have hpop := pop_of_succ (s := advance s) h
  simp only [execRet, hpop]
  rfl

theorem execRet_of_empty {s : State} (h : s.sp.val = 0) :
    execRet s = .next (faultedWith s .stackUnderflow (some 0x00EE) .nothing) := by
  have hpop := pop_empty (s := advance s) h
  simp only [execRet, hpop]
  rfl

/-- A word that decodes to RET is the encoder's. -/
theorem decode_eq_ret_iff (op : Opcode) : decode op = .ok .ret ↔ op = 0x00EE := by
  constructor
  · intro h
    exact (encode_of_decode h).1.symm
  · rintro rfl
    exact decode_encode (i := .ret) rfl

/-- Settles O26: a return above an empty stack moves `SP` and `PC` alone; at the bottom the pop fails. -/
theorem returnPops : Obligations.ReturnPops := by
  unfold Obligations.ReturnPops
  intro s
  refine ⟨decode_eq_ret_iff, fun j hj => ⟨_, execRet_of_succ hj, rfl, rfl, ?_⟩, execRet_of_empty⟩
  have hadv : KeepsAllBut [.pc, .sp] s (advance s) := (KeepsAllBut.refl _ s).setPc (by decide) _
  exact (hadv.setSp (by decide) _).setPc (by decide) _

/-! ### The pairing of the two (95_test_vectors.md S2) -/

/-- Settles O27: the slot that the return reads is the one that the call wrote. -/
theorem returnAfterCall : Obligations.ReturnAfterCall := by
  unfold Obligations.ReturnAfterCall
  intro nnn s t u hsp hcall husp hustack
  obtain ⟨-, hpush, -⟩ := callPushesReturnAddress nnn s
  obtain ⟨t', ht', -, htsp, hslot, -, -⟩ := hpush hsp
  obtain rfl : t' = t := Host.Outcome.next.inj (ht'.symm.trans hcall)
  obtain ⟨-, hpop, -⟩ := returnPops u
  obtain ⟨w, hret, hwsp, hwpc, -⟩ := hpop ⟨s.sp.val, hsp⟩ ((congrArg Fin.val husp).trans htsp)
  refine ⟨w, hret, ?_, Fin.ext hwsp⟩
  calc w.pc = u.stack[s.sp.val] := hwpc
    _ = t'.stack[s.sp.val] := by rw [hustack]
    _ = s.pc + 2 := hslot

end Sys2Proof.Machine
end

section
/-! SUPPORT. Loads and arithmetic (41_alu.md): what each of the three forms of write leaves (a register alone, a result and
its flag, a shift under each `P_VF_ORDER`), and the values of the results and flags. -/

namespace Sys2Proof.Machine

/-! ### The registers kept: one rule per update -/

theorem keepsRegsBut_advance (rs : List Reg) (s : State) : KeepsRegsBut rs s (advance s) :=
  fun _ _ => rfl

theorem KeepsRegsBut.setV {rs : List Reg} {s t : State} (h : KeepsRegsBut rs s t) {x : Reg} (hx : x ∈ rs) (b : Byte) :
    KeepsRegsBut rs s (t.setV x b) := by
  intro r hr
  have hne : r ≠ x := (ne_of_mem_of_not_mem hx hr).symm
  rw [State.getV_setV_of_ne t b hne, h r hr]

theorem keepsRegsBut_writeShift (s : State) (x : Reg) (shift : Byte → Byte) (flag : Byte) :
    KeepsRegsBut [x, flagReg] s (writeShift s x shift flag) := by
  intro r hr
  obtain ⟨hx, hflag⟩ : r ≠ x ∧ r ≠ flagReg := by simpa using hr
  exact getV_writeShift_of_ne s shift flag hx hflag

theorem keepsAllBut_advance_of_mem {fs : List Field} (hpc : .pc ∈ fs) (s : State) : KeepsAllBut fs s (advance s) :=
  (KeepsAllBut.refl fs s).setPc hpc _

/-! ### A register alone (R152-R157, R163) -/

/-- An instruction that advances and writes `V[x]` alone. -/
theorem exec_setV {i : Instr} {s : State} {x : Reg} {b : Byte} (h : exec i s = .next ((advance s).setV x b)) :
    ∃ t, exec i s = .next t ∧ t.getV x = b ∧ t.pc = s.pc + 2 ∧ KeepsRegsBut [x] s t ∧ KeepsAllBut [.pc, .v] s t :=
  ⟨_, h, State.getV_setV_same _ x b, rfl, (keepsRegsBut_advance [x] s).setV (List.mem_singleton_self x) b,
    (keepsAllBut_advance_of_mem (by decide) s).setV (by decide) x b⟩

/-- Settles O30: the decoder reads both fields back, and the register takes the byte. -/
theorem loadImmediate : Obligations.LoadImmediate := by
  unfold Obligations.LoadImmediate
  intro x kk s
  exact ⟨decode_encode (i := .ldImm x kk) rfl, exec_setV rfl⟩

/-- Settles O31: the sum's value is the exact sum mod 256. -/
theorem addImmediate : Obligations.AddImmediate := by
  unfold Obligations.AddImmediate
  intro x kk s
  obtain ⟨t, ht, hx, hframe⟩ := exec_setV (i := .addImm x kk) (s := s) rfl
  refine ⟨decode_encode (i := .addImm x kk) rfl, t, ht, ?_, hframe⟩
  rw [hx, sumByte_toNat]

/-- Settles O32: each of the four writes `V[x]` alone. -/
theorem assignAndBitwise : Obligations.AssignAndBitwise := by
  unfold Obligations.AssignAndBitwise
  intro x y s
  exact ⟨exec_setV rfl, exec_setV rfl, exec_setV rfl, exec_setV rfl⟩

/-- Settles O37: the draw moves the counter, and the mask clears the bits outside `kk` whatever was drawn. -/
theorem randomMasked : Obligations.RandomMasked := by
  unfold Obligations.RandomMasked
  intro x kk s
  refine ⟨_, rfl, rfl, State.getV_setV_same _ x _, ?_, rfl, ?_, ?_⟩
  · rw [State.getV_setV_same, BitVec.and_assoc, BitVec.and_not_self]
    exact BitVec.and_zero
  · exact (keepsRegsBut_advance [x] s).setV (List.mem_singleton_self x) _
  · exact ((keepsAllBut_advance_of_mem (by decide) s).setDraws (by decide) _).setV (by decide) x _

/-! ### A result and its flag, the flag last (R158, R159, R161) -/

/-- An instruction that advances and writes a result to `V[x]`, then a flag to `VF`. -/
theorem exec_writeResultFlag {i : Instr} {s : State} {x : Reg} {result flag : Byte}
    (h : exec i s = .next (writeResultFlag (advance s) x result flag)) :
    ∃ t, exec i s = .next t ∧ t.pc = s.pc + 2 ∧ (x ≠ 15 → t.getV x = result) ∧ t.getV 15 = flag
      ∧ KeepsRegsBut [x, 15] s t ∧ KeepsAllBut [.pc, .v] s t := by
  refine ⟨_, h, rfl, fun hx => ?_, State.getV_setV_same _ flagReg flag, ?_, ?_⟩
  · rw [getV_writeResultFlag, if_neg (show x ≠ flagReg from hx), if_pos rfl]
  · exact ((keepsRegsBut_advance [x, flagReg] s).setV (by simp) result).setV (by simp) flag
  · exact ((keepsAllBut_advance_of_mem (by decide) s).setV (by decide) x result).setV (by decide) flagReg flag

theorem flagByte_decide (p : Prop) [Decidable p] : flagByte (decide p) = if p then 1 else 0 := by
  simp only [flagByte, decide_eq_true_eq]

theorem carryFlag_eq (p q : Byte) : carryFlag p q = if p.toNat + q.toNat > 255 then 1 else 0 :=
  flagByte_decide _

theorem noBorrowFlag_eq (p q : Byte) : noBorrowFlag p q = if p.toNat ≥ q.toNat then 1 else 0 :=
  flagByte_decide _

/-- Settles O33: the sum's value is the exact sum mod 256, and the flag written after it is the carry. -/
theorem addWithCarry : Obligations.AddWithCarry := by
  unfold Obligations.AddWithCarry
  intro x y s
  obtain ⟨t, ht, hpc, hx, hflag, hframe⟩ := exec_writeResultFlag (i := .addReg x y) (s := s) rfl
  refine ⟨decode_encode (i := .addReg x y) rfl, t, ht, hpc, fun hne => ?_, ?_, hframe⟩
  · rw [hx hne, sumByte_toNat]
  · rw [hflag, carryFlag_eq]

/-- An instruction that writes the difference `p - q` to `V[x]` and then NOT borrow to `VF`. -/
theorem exec_difference {i : Instr} {s : State} {x : Reg} {p q : Byte}
    (h : exec i s = .next (writeResultFlag (advance s) x (diffByte p q) (noBorrowFlag p q))) :
    ∃ t, exec i s = .next t ∧ t.pc = s.pc + 2 ∧ (x ≠ 15 → (t.getV x).toNat = (256 + p.toNat - q.toNat) % 256)
      ∧ t.getV 15 = (if p.toNat ≥ q.toNat then 1 else 0) ∧ KeepsRegsBut [x, 15] s t ∧ KeepsAllBut [.pc, .v] s t := by
  obtain ⟨t, ht, hpc, hx, hflag, hframe⟩ := exec_writeResultFlag h
  refine ⟨t, ht, hpc, fun hne => ?_, ?_, hframe⟩
  · rw [hx hne, diffByte_toNat]
  · rw [hflag, noBorrowFlag_eq]

/-- Settles O34: SUB and SUBN write the two differences of the registers as they were before. -/
theorem subtractWithBorrow : Obligations.SubtractWithBorrow := by
  unfold Obligations.SubtractWithBorrow
  intro x y s
  exact ⟨decode_encode (i := .sub x y) rfl, decode_encode (i := .subn x y) rfl, exec_difference rfl, exec_difference rfl⟩

/-! ### A shift (R151, R160, R162) -/

@[simp] theorem writeShift_pc (s : State) (x : Reg) (shift : Byte → Byte) (flag : Byte) :
    (writeShift s x shift flag).pc = s.pc := by
  rw [writeShift_fields]

/-- Where `V[x]` is not `VF` the order of the two writes makes no difference. -/
theorem getV_writeShift_of_ne_flagReg (s : State) {x : Reg} (hx : x ≠ flagReg) (shift : Byte → Byte) (flag : Byte) :
    (writeShift s x shift flag).getV x = shift (s.getV x) ∧ (writeShift s x shift flag).getV flagReg = flag := by
  unfold writeShift
  cases s.cfg.vfOrder <;> simp [hx, hx.symm]

/-- What `VF` ends as where it is the register shifted, `v` before: the last of the two writes, and under `TEXT_ORDER` that
one shifts the flag (R151). -/
def vfAfterShift (shift : Byte → Byte) (v flag : Byte) : VfOrder → Byte
  | .textOrder => shift flag
  | .resultLast => shift v
  | .flagLast => flag

theorem getV_writeShift_flagReg (s : State) (shift : Byte → Byte) (flag : Byte) :
    (writeShift s flagReg shift flag).getV flagReg = vfAfterShift shift (s.getV flagReg) flag s.cfg.vfOrder := by
  unfold writeShift
  cases s.cfg.vfOrder <;> simp [vfAfterShift]

/-- An instruction that advances and shifts `V[x]`. -/
theorem exec_writeShift {i : Instr} {s : State} {x : Reg} {shift : Byte → Byte} {flag : Byte}
    (h : exec i s = .next (writeShift (advance s) x shift flag)) :
    ∃ t, exec i s = .next t ∧ t.pc = s.pc + 2 ∧ (x ≠ 15 → t.getV x = shift (s.getV x) ∧ t.getV 15 = flag)
      ∧ (x = 15 → t.getV 15 = vfAfterShift shift (s.getV x) flag s.cfg.vfOrder)
      ∧ KeepsRegsBut [x, 15] s t ∧ KeepsAllBut [.pc, .v] s t := by
  refine ⟨_, h, writeShift_pc _ x shift flag, fun hx => ?_, fun hx => ?_, ?_, ?_⟩
  · exact getV_writeShift_of_ne_flagReg (advance s) hx shift flag
  · subst hx
    exact getV_writeShift_flagReg (advance s) shift flag
  · exact keepsRegsBut_writeShift (advance s) x shift flag
  · exact (keepsAllBut_advance_of_mem (by decide) s).writeShift (by decide) x shift flag

theorem shiftRight1_toNat (v : Byte) : (shiftRight1 v).toNat = v.toNat / 2 := by
  simp [shiftRight1, Nat.shiftRight_eq_div_pow]

theorem lowBit_toNat (v : Byte) : (lowBit v).toNat = v.toNat % 2 := by
  simp [lowBit, Nat.and_one_is_mod]

theorem shiftLeft1_toNat (v : Byte) : (shiftLeft1 v).toNat = v.toNat * 2 % 256 := by
  simp [shiftLeft1, Nat.shiftLeft_eq]

theorem highBit_toNat (v : Byte) : (highBit v).toNat = v.toNat / 128 := by
  simp [highBit, Nat.shiftRight_eq_div_pow]

/-- Settles O35: for x = F by the three orders; the low bit shifted right once more is 0. -/
theorem shiftRight : Obligations.ShiftRight := by
  unfold Obligations.ShiftRight
  intro x y s
  obtain ⟨t, ht, hpc, hne, heq, hframe⟩ := exec_writeShift (i := .shr x y) (s := s) rfl
  refine ⟨t, ht, hpc, fun hx => ?_, fun hx => ?_, hframe⟩
  · obtain ⟨hresult, hflag⟩ := hne hx
    rw [hresult, hflag]
    exact ⟨shiftRight1_toNat _, lowBit_toNat _⟩
  · rw [heq hx]
    cases s.cfg.vfOrder with
    | textOrder =>
      have hzero : (shiftRight1 (lowBit (s.getV x))).toNat = 0 := by
        rw [shiftRight1_toNat, lowBit_toNat]
        omega
      exact hzero
    | resultLast => exact shiftRight1_toNat _
    | flagLast => exact lowBit_toNat _

/-- Settles O36: for x = F by the three orders; the high bit shifted left once is its double, which needs no wrap. -/
theorem shiftLeft : Obligations.ShiftLeft := by
  unfold Obligations.ShiftLeft
  intro x y s
  obtain ⟨t, ht, hpc, hne, heq, hframe⟩ := exec_writeShift (i := .shl x y) (s := s) rfl
  refine ⟨t, ht, hpc, fun hx => ?_, fun hx => ?_, hframe⟩
  · obtain ⟨hresult, hflag⟩ := hne hx
    rw [hresult, hflag]
    exact ⟨shiftLeft1_toNat _, highBit_toNat _⟩
  · rw [heq hx]
    cases s.cfg.vfOrder with
    | textOrder =>
      have hdouble : (shiftLeft1 (highBit (s.getV x))).toNat = 2 * ((s.getV x).toNat / 128) := by
        have hlt := (s.getV x).isLt
        rw [shiftLeft1_toNat, highBit_toNat]
        omega
      exact hdouble
    | resultLast => exact shiftLeft1_toNat _
    | flagLast => exact highBit_toNat _

end Sys2Proof.Machine
end

section
/-! SUPPORT. The index register and the memory transfers through it (42_index_memory.md): the three instructions that write
`I` alone, what the stores of Fx33 and Fx55 leave where they complete, and Fx65 in each case of its range. -/

namespace Sys2Proof.Machine

/-! ### `I` alone (R180-R182) -/

/-- An instruction that advances and writes `I` alone. -/
theorem exec_setI {i : Instr} {s : State} {w : Word} (h : exec i s = .next ((advance s).setI w)) :
    ∃ t, exec i s = .next t ∧ t.i = w ∧ t.pc = s.pc + 2 ∧ KeepsAllBut [.pc, .i] s t :=
  ⟨_, h, rfl, rfl, (keepsAllBut_advance_of_mem (by decide) s).setI (by decide) w⟩

/-- Settles O38: the decoder reads the address back, and `I` takes it widened. -/
theorem setIndex : Obligations.SetIndex := by
  unfold Obligations.SetIndex
  intro nnn s
  obtain ⟨t, ht, hi, hframe⟩ := exec_setI (i := .ldI nnn) (s := s) rfl
  refine ⟨decode_encode (i := .ldI nnn) rfl, t, ht, ?_, hframe⟩
  rw [hi, zextAddr_toNat]

/-- Settles O39: five times a byte fits in 16 bits, so the product is exact. (`fontAddress` is the model's function.) -/
theorem IndexMemory.fontAddress : Obligations.FontAddress := by
  unfold Obligations.FontAddress
  intro x s
  obtain ⟨t, ht, hi, hframe⟩ := exec_setI (i := .ldFVx x) (s := s) rfl
  refine ⟨decode_encode (i := .ldFVx x) rfl, t, ht, ?_, hframe⟩
  rw [hi, fontAddress_toNat]

theorem execAddIVx_of_le {x : Reg} {s : State} (h : s.i.toNat + (s.getV x).toNat ≤ 0xFFFF) :
    execAddIVx x s = .next ((advance s).setI (BitVec.ofNat 16 (s.i.toNat + (s.getV x).toNat))) := by
  rw [execAddIVx, if_neg (by omega), conclude_ok]

theorem execAddIVx_of_gt {x : Reg} {s : State} (h : 0xFFFF < s.i.toNat + (s.getV x).toNat) :
    execAddIVx x s = .next (faultedWith s .indexOverflow (some (encode (.addIVx x)))
      (.sum (s.i.toNat + (s.getV x).toNat))) := by
  rw [execAddIVx, if_pos h, conclude_error, takeFault_eq, faultedWith]

/-- Settles O40: a sum that fits 16 bits is stored as it is; a larger one is recorded. -/
theorem addToIndex : Obligations.AddToIndex := by
  unfold Obligations.AddToIndex
  intro x s
  refine ⟨fun hle => ?_, execAddIVx_of_gt⟩
  obtain ⟨t, ht, hi, hframe⟩ := exec_setI (i := .addIVx x) (execAddIVx_of_le hle)
  refine ⟨t, ht, ?_, hframe⟩
  rw [hi, BitVec.toNat_ofNat, Nat.mod_eq_of_lt (by omega)]

/-! ### The stores that complete (R183-R185) -/

/-- Each byte stored is read back at its place in the order. -/
theorem memWriteBytes_byteAt_add {s t : State} {a k : Nat} {b : Byte} {bs : List Byte} (hs : MemoryCanonical s)
    (h : memWriteBytes s a bs = .ok t) (hk : bs[k]? = some b) : t.byteAt (a + k) = b := by
  rw [memWriteBytes_byteAt hs h, if_neg (by omega), Nat.add_sub_cancel_left, hk, Option.getD_some]

/-- An instruction that advances and stores `bs` from `I` up, where every address may be written. -/
theorem exec_stores {i : Instr} {s : State} {bs : List Byte} (hs : MemoryCanonical s)
    (hr : s.cfg.reservedWrite = .allow ∨ 0x1FF < s.i.toNat) (hend : s.i.toNat + bs.length ≤ 0x1000)
    (h : exec i s = conclude s i (memWriteBytes (advance s) (indexAddress s) bs)) :
    ∃ t, exec i s = .next t ∧ t.pc = s.pc + 2
      ∧ (∀ {k b}, bs[k]? = some b → t.byteAt (s.i.toNat + k) = b)
      ∧ KeepsBytesBut s.i.toNat bs.length s t ∧ KeepsAllBut [.pc, .mem] s t := by
  obtain ⟨t, ht⟩ := memWriteBytes_completes (s := advance s) (a := indexAddress s) hr hend
  have hcanon : MemoryCanonical (advance s) := hs
  have hkept : KeepsBytesBut (indexAddress s) bs.length (advance s) t := memWriteBytes_keepsBytesBut hcanon ht
  refine ⟨t, ?_, ?_, memWriteBytes_byteAt_add hcanon ht, hkept, ?_⟩
  · rw [h, ht, conclude_ok]
  · rw [memWriteBytes_fields ht]
    rfl
  · exact (keepsAllBut_advance_of_mem (by decide) s).memWriteBytes (by decide) ht

/-- Settles O41: the three bytes stored are the digits, and each digit of a byte is below 256. -/
theorem storeDecimalDigits : Obligations.StoreDecimalDigits := by
  unfold Obligations.StoreDecimalDigits
  intro x s hs hr hend
  have hlen : (bcdDigits (s.getV x)).length = 3 := rfl
  have hbyte := (s.getV x).isLt
  obtain ⟨t, ht, hpc, hstored, hframe⟩ := exec_stores (i := .ldBVx x) hs hr (by omega) rfl
  have digit {k n : Nat} (hk : (bcdDigits (s.getV x))[k]? = some (BitVec.ofNat 8 n)) (hn : n < 256) :
      (t.byteAt (s.i.toNat + k)).toNat = n := by
    rw [hstored hk, BitVec.toNat_ofNat, Nat.mod_eq_of_lt hn]
  exact ⟨t, ht, hpc, digit (k := 0) rfl (by omega), digit (k := 1) rfl (by omega), digit (k := 2) rfl (by omega), hframe⟩

/-- Settles O42: the bytes stored are the registers in order. -/
theorem storeRegisters : Obligations.StoreRegisters := by
  unfold Obligations.StoreRegisters
  intro x s hs hr hend
  have hlen := dumpBytes_length s x
  obtain ⟨t, ht, hpc, hstored, hframe⟩ := exec_stores (i := .ldMemVx x) hs hr (by omega) rfl
  rw [hlen] at hframe
  exact ⟨t, ht, hpc, fun r hle => hstored (dumpBytes_getElem? s x r hle), hframe⟩

/-! ### The load (R186, R187) -/

/-- The bytes Fx65 reads: `Mem[I]`, ..., `Mem[I + x]`. -/
def loadBytes (s : State) (x : Reg) : List Byte := (List.range (x.val + 1)).map fun k => s.byteAt (s.i.toNat + k)

theorem loadBytes_length (s : State) (x : Reg) : (loadBytes s x).length = x.val + 1 := by
  simp [loadBytes]

theorem loadBytes_getElem? (s : State) {x r : Reg} (h : r.val ≤ x.val) :
    (loadBytes s x)[r.val]? = some (s.byteAt (s.i.toNat + r.val)) := by
  simp [loadBytes, Nat.lt_succ_of_le h]

theorem execLdVxMem_of_le {x : Reg} {s : State} (h : s.i.toNat + x.val ≤ 0xFFF) :
    execLdVxMem x s = .next ((advance s).loadV (loadBytes s x)) := by
  have hread : memReadBytes (advance s) (indexAddress s) (x.val + 1) = .ok (loadBytes s x) :=
    memReadBytes_ok (.inl (Nat.succ_le_succ h))
  simp only [execLdVxMem, hread, conclude_ok]

theorem execLdVxMem_of_gt {x : Reg} {s : State} (h : 0xFFF < s.i.toNat + x.val) :
    execLdVxMem x s =
      .next (faultedWith s .memBounds (some (encode (.ldVxMem x))) (.address (max s.i.toNat 0x1000))) := by
  have hread : memReadBytes (advance s) (indexAddress s) (x.val + 1) =
      .error ⟨.memBounds, .address (max s.i.toNat 0x1000)⟩ :=
    memReadBytes_bounds (Nat.succ_lt_succ h) (Nat.succ_ne_zero _)
  simp only [execLdVxMem, hread, conclude_error, takeFault_eq, faultedWith]

/-- A register in the range takes its byte, whatever the other fields of the state loaded into hold. -/
theorem getV_loadV_loadBytes (s u : State) {x r : Reg} (h : r.val ≤ x.val) :
    (u.loadV (loadBytes s x)).getV r = s.byteAt (s.i.toNat + r.val) := by
  rw [State.getV_loadV, loadBytes_getElem? s h, Option.getD_some]

/-- Settles O44: inside memory the list read covers exactly `V0`..`Vx`; else the first access past 0xFFF fails. -/
theorem loadRegisters : Obligations.LoadRegisters := by
  unfold Obligations.LoadRegisters
  intro x s
  refine ⟨fun hle => ⟨_, execLdVxMem_of_le hle, rfl, fun r hr => ?_, fun r hr => ?_, ?_⟩, execLdVxMem_of_gt⟩
  · exact getV_loadV_loadBytes s (advance s) hr
  · exact getV_loadV_of_gt (advance s) (loadBytes_length s x) hr
  · exact (keepsAllBut_advance_of_mem (by decide) s).setAllV (by decide) _

/-- Settles O45: the dump ended inside memory and kept `I` (D17), so the load completes and reads back the bytes stored. -/
theorem dumpThenLoad : Obligations.DumpThenLoad := by
  unfold Obligations.DumpThenLoad
  intro x s t u hs hdump hnf hmem hi
  have hf : ¬ FaultTaken s t := not_faultTaken hnf
  have hindex : u.i = s.i := hi.trans (exec_i hdump (by simp) (by simp) (by simp))
  have hend : u.i.toNat + x.val ≤ 0xFFF := by
    rw [hindex]
    exact execLdMemVx_le hf hdump
  refine ⟨_, execLdVxMem_of_le hend, fun r hr => ?_⟩
  rw [getV_loadV_loadBytes u (advance u) hr, hmem, hindex]
  exact execLdMemVx_byteAt hf hdump hs hr

end Sys2Proof.Machine
end

section
/-! SUPPORT. The display (43_display.md): the clear, the pixels of a sprite and that no two of its bits share one, a draw in
each case of its rows, and the same draw twice. -/

namespace Sys2Proof.Machine

/-! ### The clear (R200) -/

/-- A well-formed instruction is decoded from its own word alone. -/
theorem decode_eq_ok_iff {op : Opcode} {i : Instr} (h : i.wellFormed = true) : decode op = .ok i ↔ op = encode i := by
  constructor
  · intro hd
    exact (encode_of_decode hd).1.symm
  · rintro rfl
    exact decode_encode h

/-- Settles O47: the one word is the encoder's, and every pixel of the blank display is 0. -/
theorem clearDisplay : Obligations.ClearDisplay := by
  unfold Obligations.ClearDisplay
  intro s
  refine ⟨fun _ => decode_eq_ok_iff (i := .cls) rfl, _, rfl, rfl, fun p _ => pixel_blankDisplay p, rfl, ?_⟩
  exact ((keepsAllBut_advance_of_mem (by decide) s).setDisp (by decide) _).setDirty (by decide) true

/-! ### The bits of a sprite land on different pixels (R202, R203) -/

/-- A sprite is narrower and lower than the screen, so neither wrap brings two of its bits together. -/
theorem pixelIndex_inj {w : DrawWrap} {cx cy c1 r1 c2 r2 : Nat} (hc1 : c1 < 8) (hc2 : c2 < 8) (hr1 : r1 < 15)
    (hr2 : r2 < 15) (h : pixelIndex w (cx + c1) (cy + r1) = pixelIndex w (cx + c2) (cy + r2)) : c1 = c2 ∧ r1 = r2 := by
  cases w <;> simp only [pixelIndex] at h <;> omega

/-- Settles O48: under each wrap the index tells the column and the row apart. -/
theorem spriteBitsApart : Obligations.SpriteBitsApart := by
  unfold Obligations.SpriteBitsApart
  intro w cx cy c1 r1 c2 r2
  exact pixelIndex_inj

theorem rowPixels_nodup (w : DrawWrap) (cx py : Nat) (b : Byte) : (rowPixels w cx py b).Nodup := by
  refine List.Nodup.map_on (fun c1 hc1 c2 hc2 h => ?_) (List.nodup_range.filter _)
  have hlt1 : c1 < 8 := List.mem_range.mp (List.mem_of_mem_filter hc1)
  have hlt2 : c2 < 8 := List.mem_range.mp (List.mem_of_mem_filter hc2)
  exact (pixelIndex_inj (cy := py) (r1 := 0) (r2 := 0) hlt1 hlt2 (by decide) (by decide) h).1

/-- A pixel of the first row and one of a row below it come from different rows, so they differ. -/
theorem spritePixels_nodup {w : DrawWrap} {cx cy : Nat} {rows : List Byte} (h : rows.length ≤ 15) :
    (spritePixels w cx cy rows).Nodup := by
  induction rows generalizing cy with
  | nil => exact List.nodup_nil
  | cons b rows ih =>
    rw [List.length_cons] at h
    refine List.nodup_append'.mpr ⟨rowPixels_nodup w cx cy b, ih (by omega), fun p hfirst hbelow => ?_⟩
    obtain ⟨c1, hc1, -, rfl⟩ := mem_rowPixels.mp hfirst
    obtain ⟨r, c2, hr, hc2, -, heq⟩ := mem_spritePixels.mp hbelow
    rw [Nat.add_assoc] at heq
    have hrow := (pixelIndex_inj (r1 := 0) hc1 hc2 (by decide) (by omega) heq).2
    omega

/-! ### The pixels of a draw (R201, R204) -/

/-- The rows of a sprite of `n` rows: `Mem[I]`, ..., `Mem[I + n - 1]`. -/
def spriteRows (s : State) (n : Nibble) : List Byte := (List.range n.toNat).map fun r => s.byteAt (s.i.toNat + r)

theorem spriteRows_length (s : State) (n : Nibble) : (spriteRows s n).length = n.toNat := by
  simp [spriteRows]

theorem spriteRows_getElem (s : State) (n : Nibble) {r : Nat} (h : r < (spriteRows s n).length) :
    (spriteRows s n)[r] = s.byteAt (s.i.toNat + r) := by
  simp [spriteRows]

/-- The pixels under the 1 bits of the sprite at `Mem[I]` with its origin in `V[x]`, `V[y]`, in the order they are drawn. -/
def drawnPixels (s : State) (x y : Reg) (n : Nibble) : List Nat :=
  spritePixels s.cfg.drawWrap (originValue s x) (originValue s y) (spriteRows s n)

theorem wrappedIndex_eq_pixelIndex (w : DrawWrap) (px py : Nat) : wrappedIndex w px py = pixelIndex w px py := by
  cases w <;> rfl

theorem mem_drawnPixels {s : State} {x y : Reg} {n : Nibble} {p : Nat} :
    p ∈ drawnPixels s x y n ↔ SpriteCovers s x y n.toNat p := by
  simp only [drawnPixels, mem_spritePixels, spriteRows_getElem, spriteRows_length, SpriteCovers,
    wrappedIndex_eq_pixelIndex, exists_prop]

/-- A covered pixel lies on the screen (R202). -/
theorem SpriteCovers.lt {s : State} {x y : Reg} {n p : Nat} (h : SpriteCovers s x y n p) : p < 2048 := by
  obtain ⟨r, c, -, -, -, rfl⟩ := h
  rw [wrappedIndex_eq_pixelIndex]
  exact pixelIndex_lt _ _ _

theorem drawnPixels_nodup (s : State) (x y : Reg) (n : Nibble) : (drawnPixels s x y n).Nodup := by
  have hn := n.isLt
  exact spritePixels_nodup (by rw [spriteRows_length]; omega)

/-- What the covered pixels depend on: the memory, `I`, the parameters and the origin. -/
theorem SpriteCovers.congr {s t : State} {x y : Reg} {n p : Nat} (hmem : ∀ a, t.byteAt a = s.byteAt a) (hi : t.i = s.i)
    (hcfg : t.cfg = s.cfg) (hx : originValue t x = originValue s x) (hy : originValue t y = originValue s y) :
    SpriteCovers t x y n p ↔ SpriteCovers s x y n p := by
  simp only [SpriteCovers, hmem, hi, hcfg, hx, hy]

/-! ### The display after a draw, and whether it collided (R204) -/

section
variable (s : State) (x y : Reg) (n : Nibble)

/-- The display after the sprite at `Mem[I]` is drawn on it, and whether a pixel it flipped was 1. -/
def drawn : Display × Bool := blit (drawnPixels s x y n) (s.disp, false)

/-- No pixel is flipped twice, so each is as before or its complement, and each collision is seen before its pixel is
flipped. -/
theorem drawn_spec :
    (∀ p, pixel (drawn s x y n).1 p = (pixel s.disp p ^^ decide (p ∈ drawnPixels s x y n))) ∧
      (drawn s x y n).2 = (drawnPixels s x y n).any (pixel s.disp) := by
  obtain ⟨hpixel, hhit⟩ :=
    blit_spec (drawnPixels s x y n) s.disp false (fun _ hp => (mem_drawnPixels.mp hp).lt) (drawnPixels_nodup s x y n)
  exact ⟨hpixel, hhit.trans (Bool.false_or _)⟩

variable {s x y n}

theorem pixel_drawn_of_covers {p : Nat} (h : SpriteCovers s x y n.toNat p) :
    pixel (drawn s x y n).1 p = !pixel s.disp p := by
  rw [(drawn_spec s x y n).1, decide_eq_true (mem_drawnPixels.mpr h), Bool.xor_true]

theorem pixel_drawn_of_not_covers {p : Nat} (h : ¬ SpriteCovers s x y n.toNat p) :
    pixel (drawn s x y n).1 p = pixel s.disp p := by
  rw [(drawn_spec s x y n).1, decide_eq_false (mt mem_drawnPixels.mp h), Bool.xor_false]

theorem drawn_snd_iff :
    (drawn s x y n).2 = true ↔ ∃ p, SpriteCovers s x y n.toNat p ∧ pixel s.disp p = true := by
  rw [(drawn_spec s x y n).2, List.any_eq_true]
  simp only [mem_drawnPixels]

end

/-! ### A draw whose rows lie inside memory, and one whose rows do not (R204, R256) -/

/-- The origin a draw takes from a register, under each `P_DRAW_LATCH`. -/
theorem drawOrigin_toNat (s : State) (x y : Reg) :
    (drawOrigin s x y).1.toNat = originValue s x ∧ (drawOrigin s x y).2.toNat = originValue s y := by
  have reset (r : Reg) : ((s.setV flagReg 0).getV r).toNat = if r = 15 then 0 else (s.getV r).toNat := by
    rw [State.getV_setV]
    exact apply_ite BitVec.toNat _ _ _
  unfold drawOrigin originValue
  cases s.cfg.drawLatch with
  | beforeReset => simp
  | afterReset => simpa using ⟨reset x, reset y⟩

/-- What a draw leaves: `VF`, the display and `Dirty`. -/
theorem drawRows_advance (s : State) (x y : Reg) (n : Nibble) :
    drawRows (advance s) x y (spriteRows s n) =
      (((advance s).setV flagReg (flagByte (drawn s x y n).2)).setDisp (drawn s x y n).1).setDirty true := by
  obtain ⟨hx, hy⟩ := drawOrigin_toNat (advance s) x y
  simp only [drawRows, hx, hy]
  rfl

theorem execDrw_of_le {x y : Reg} {n : Nibble} {s : State} (h : n.toNat = 0 ∨ s.i.toNat + n.toNat ≤ 0x1000) :
    execDrw x y n s = .next
      ((((advance s).setV flagReg (flagByte (drawn s x y n).2)).setDisp (drawn s x y n).1).setDirty true) := by
  have hread : memReadBytes (advance s) (indexAddress s) n.toNat = .ok (spriteRows s n) := memReadBytes_ok h.symm
  simp only [execDrw, hread, conclude_ok, drawRows_advance]

theorem execDrw_of_gt {x y : Reg} {n : Nibble} {s : State} (hn : 1 ≤ n.toNat) (h : 0x1000 < s.i.toNat + n.toNat) :
    execDrw x y n s =
      .next (faultedWith s .memBounds (some (encode (.drw x y n))) (.address (max s.i.toNat 0x1000))) := by
  have hread : memReadBytes (advance s) (indexAddress s) n.toNat =
      .error ⟨.memBounds, .address (max s.i.toNat 0x1000)⟩ :=
    memReadBytes_bounds h (Nat.ne_of_gt hn)
  simp only [execDrw, hread, conclude_error, takeFault_eq, faultedWith]

/-- Settles O50: the first row past 0xFFF fails to be read, before anything is drawn. -/
theorem drawOutsideMemoryFaults : Obligations.DrawOutsideMemoryFaults := by
  unfold Obligations.DrawOutsideMemoryFaults
  intro x y n s
  exact execDrw_of_gt

/-- Settles O49: the pixels drawn are the covered ones, each once; `VF` is written before the display and keeps the
collision. -/
theorem drawSprite : Obligations.DrawSprite := by
  unfold Obligations.DrawSprite
  intro x y n s hrows
  refine ⟨_, execDrw_of_le hrows, rfl, rfl, fun p _ => ⟨pixel_drawn_of_covers, pixel_drawn_of_not_covers⟩,
    fun hhit => ?_, fun hmiss => ?_, ?_, ?_⟩
  · have hflag : (drawn s x y n).2 = true := drawn_snd_iff.mpr hhit
    rw [hflag]
    exact State.getV_setV_same _ flagReg 1
  · have hflag : (drawn s x y n).2 = false := Bool.eq_false_iff.mpr (mt drawn_snd_iff.mp hmiss)
    rw [hflag]
    exact State.getV_setV_same _ flagReg 0
  · exact (keepsRegsBut_advance [flagReg] s).setV (List.mem_singleton_self flagReg) _
  · exact (((keepsAllBut_advance_of_mem (by decide) s).setV (by decide) flagReg _).setDisp (by decide) _).setDirty
      (by decide) true

/-! ### The same draw twice (R206) -/

/-- Settles O51: a draw keeps all that the covered pixels depend on but its origin, so the second covers the same pixels
and finds each the complement of what the first found. -/
theorem drawTwiceRestores : Obligations.DrawTwiceRestores := by
  unfold Obligations.DrawTwiceRestores
  intro x y n s t hrows hfirst hx hy
  obtain ⟨t', ht', -, -, hpixel, -, -, -, hkeep⟩ := drawSprite x y n s hrows
  obtain rfl : t' = t := Host.Outcome.next.inj (ht'.symm.trans hfirst)
  have hi : t'.i = s.i := hkeep .i (by decide)
  have hcovers (p : Nat) : SpriteCovers t' x y n.toNat p ↔ SpriteCovers s x y n.toNat p :=
    SpriteCovers.congr (hkeep .mem (by decide)) hi (hkeep .cfg (by decide)) hx hy
  have hcollides : (∃ p, SpriteCovers t' x y n.toNat p ∧ pixel t'.disp p = true) ↔
      ∃ p, SpriteCovers s x y n.toNat p ∧ pixel s.disp p = false := by
    refine exists_congr fun p => ?_
    rw [hcovers]
    refine and_congr_right fun hp => ?_
    rw [(hpixel p hp.lt).1 hp, Bool.not_eq_true']
  obtain ⟨u, hu, -, -, hpixel', hhit, hmiss, -⟩ := drawSprite x y n t' (by rwa [hi])
  refine ⟨u, hu, fun p hp => ?_, hhit ∘ hcollides.mpr, hmiss ∘ mt hcollides.mp⟩
  by_cases hc : SpriteCovers s x y n.toNat p
  · rw [(hpixel' p hp).1 ((hcovers p).mpr hc), (hpixel p hp).1 hc, Bool.not_not]
  · rw [(hpixel' p hp).2 (mt (hcovers p).mp hc), (hpixel p hp).2 hc]

end Sys2Proof.Machine
end

section
/-! SUPPORT. The timers and the keypad (44_timers_keypad.md): the moves to and from the timers and the step that ends in a
tick, the key skips in each case of the key number, and the wait for a key from Fx0A to the key event. -/

namespace Sys2Proof.Machine

/-! ### The timers (R230-R232) -/

/-- Settles O52: each of the three advances and writes one field, with what stood before the tick. -/
theorem timerMoves : Obligations.TimerMoves := by
  unfold Obligations.TimerMoves
  intro x s
  have hdt : KeepsAllBut [.pc, .dt] s (advance s) := keepsAllBut_advance_of_mem (by decide) s
  have hst : KeepsAllBut [.pc, .st] s (advance s) := keepsAllBut_advance_of_mem (by decide) s
  exact ⟨exec_setV rfl, ⟨_, rfl, rfl, rfl, hdt.setDt (by decide) _⟩, ⟨_, rfl, rfl, rfl, hst.setSt (by decide) _⟩⟩

theorem fetch_pc_of_le {s : State} (h : s.pc.toNat ≤ 0xFFE) : fetch s s.pc = .ok (wordAtPc s) :=
  fetch_of_le h

/-- An instruction that leaves the machine running is followed by the tick (R35, 60_exceptions.md R250). -/
theorem step_of_exec_running {s u : State} {i : Instr} (hm : s.mode = .running) (hpc : s.pc.toNat ≤ 0xFFE)
    (hd : decode (wordAtPc s) = .ok i) (he : exec i s = .next u) (hu : u.mode = .running) :
    step s = .next (tick u) := by
  have hend : endStep u = tick u := by simp [endStep, hu, Mode.isFaulted]
  rw [step_of_exec hm (fetch_pc_of_le hpc) hd he, hend]

/-- Settles O53: the write, which leaves the mode, is followed by the tick. -/
theorem timerWriteThenTick : Obligations.TimerWriteThenTick := by
  unfold Obligations.TimerWriteThenTick
  intro x s hm hpc
  obtain ⟨-, ⟨t, ht, hdt, -, htkeep⟩, u, hu, hst, -, hukeep⟩ := timerMoves x s
  have htm : t.mode = .running := (htkeep .mode (by decide)).trans hm
  have hum : u.mode = .running := (hukeep .mode (by decide)).trans hm
  refine ⟨fun hd => ⟨_, step_of_exec_running hm hpc hd ht htm, ?_⟩,
    fun hd => ⟨_, step_of_exec_running hm hpc hd hu hum, ?_⟩⟩
  · rw [← hdt]
    exact countDown_toNat t.dt
  · rw [← hst]
    exact countDown_toNat u.st

/-! ### The key skips (R234, R235, R263) -/

section
variable {x : Reg} {s : State}

theorem execSkp_of_lt (h : (s.getV x).toNat < 16) :
    execSkp x s = .next (skipIf (s.getKey ⟨(s.getV x).toNat, h⟩) (advance s)) := by
  simp only [execSkp, keyOperand_ok h, conclude_ok]

theorem execSknp_of_lt (h : (s.getV x).toNat < 16) :
    execSknp x s = .next (skipIf (!s.getKey ⟨(s.getV x).toNat, h⟩) (advance s)) := by
  simp only [execSknp, keyOperand_ok h, conclude_ok]

theorem execSkp_of_gt (h : 15 < (s.getV x).toNat) :
    execSkp x s = .next (faultedWith s .keyIndex (some (encode (.skp x))) (.key (s.getV x))) := by
  simp only [execSkp, keyOperand_error h, conclude_error, takeFault_eq, faultedWith]

theorem execSknp_of_gt (h : 15 < (s.getV x).toNat) :
    execSknp x s = .next (faultedWith s .keyIndex (some (encode (.sknp x))) (.key (s.getV x))) := by
  simp only [execSknp, keyOperand_error h, conclude_error, takeFault_eq, faultedWith]

end

/-- Settles O54: the key's flag is the condition of one `skipIf`, negated for SKNP; above 0xF there is no key to read. -/
theorem keySkips : Obligations.KeySkips := by
  unfold Obligations.KeySkips
  intro x s
  have frame (c : Bool) : KeepsAllBut [.pc] s (skipIf c (advance s)) := (keepsAllBut_advance s).skipIf (by decide) c
  refine ⟨fun hlt => ⟨⟨_, execSkp_of_lt hlt, frame _, skipIf_advance_pc _ s⟩, ⟨_, execSknp_of_lt hlt, frame _, ?_⟩⟩,
    fun hgt => ⟨execSkp_of_gt hgt, execSknp_of_gt hgt⟩⟩
  rw [skipIf_advance_pc]
  cases s.getKey ⟨(s.getV x).toNat, hlt⟩ <;> rfl

/-! ### The wait for a key: entered (R240), stepped (R241), completed (R242) -/

theorem execLdVxK_of_await {s : State} (h : s.cfg.waitPolicy = .await) (x : Reg) :
    execLdVxK x s = .next ((advance s).setMode (.awaitKey x)) := by
  simp only [execLdVxK, h, conclude_ok]

theorem execLdVxK_of_fault {s : State} (h : s.cfg.waitPolicy = .fault) (x : Reg) :
    execLdVxK x s = .next (faultedWith s .unimplemented (some (encode (.ldVxK x))) .nothing) := by
  simp only [execLdVxK, h, conclude_error, takeFault_eq, faultedWith]

/-- Settles O55: one equation for each `P_FX0A`. -/
theorem waitForKey : Obligations.WaitForKey := by
  unfold Obligations.WaitForKey
  intro x s
  refine ⟨fun h => ⟨_, execLdVxK_of_await h x, rfl, rfl, ?_⟩, fun h => execLdVxK_of_fault h x⟩
  exact (keepsAllBut_advance_of_mem (by decide) s).setMode (by decide) _

theorem awaitStep_of_frozen {s : State} (h : s.cfg.awaitTimers = .frozen) : awaitStep s = s := by
  simp only [awaitStep, h]

theorem awaitStep_of_decrement {s : State} (h : s.cfg.awaitTimers = .decrement) : awaitStep s = tick s := by
  simp only [awaitStep, h]

theorem keepsAllBut_tick (s : State) : KeepsAllBut [.dt, .st] s (tick s) :=
  ((KeepsAllBut.refl _ s).setDt (by decide) _).setSt (by decide) _

/-- Settles O11: one equation for each `P_AWAIT_TIMERS`. -/
theorem waitingStep : Obligations.WaitingStep := by
  unfold Obligations.WaitingStep
  intro s x hm
  rw [step_of_awaitKey hm]
  constructor
  · intro h
    rw [awaitStep_of_frozen h]
  · intro h
    rw [awaitStep_of_decrement h]
    exact ⟨_, rfl, countDown_toNat s.dt, countDown_toNat s.st, keepsAllBut_tick s⟩

theorem keyEvent_of_awaitKey {s : State} {x : Reg} (h : s.mode = .awaitKey x) (k : Key) :
    keyEvent s k = (s.setV x (BitVec.ofNat 8 k.val)).setMode .running := by
  simp only [keyEvent, h]

theorem keyEvent_of_not_awaitKey {s : State} (h : ∀ x, s.mode ≠ .awaitKey x) (k : Key) : keyEvent s k = s := by
  cases hm : s.mode with
  | awaitKey x => exact absurd hm (h x)
  | running | faulted _ | stopped => simp only [keyEvent, hm]

/-- Settles O56: the event writes the register the wait names, and a key number fits a byte. -/
theorem keyEventCompletesWait : Obligations.KeyEventCompletesWait := by
  unfold Obligations.KeyEventCompletesWait
  intro s k
  refine ⟨fun x hx => ?_, fun h => keyEvent_of_not_awaitKey h k⟩
  rw [keyEvent_of_awaitKey hx]
  refine ⟨?_, rfl, ?_, ?_⟩
  · rw [State.getV_setMode, State.getV_setV_same, BitVec.toNat_ofNat]
    exact Nat.mod_eq_of_lt (by omega)
  · have hregs : KeepsRegsBut [x] s s := fun _ _ => rfl
    exact hregs.setV (List.mem_singleton_self x) _
  · exact ((KeepsAllBut.refl _ s).setV (by decide) x _).setMode (by decide) .running

end Sys2Proof.Machine
end

section
/-! SUPPORT. The faults of a step (60_exceptions.md R250-R255): what a running step answers where its word decodes and where
it does not, that the words with no instruction are those of 30_encoding.md R97, and that a fault changes nothing but the
mode. -/

namespace Sys2Proof.Machine

/-! ### A refused load (R265) -/

/-- Settles O5: the two causes are the two branches of `load` that answer no state. -/
theorem loadRefused : Obligations.LoadRefused := by
  unfold Obligations.LoadRefused
  intro cfg draws
  exact ⟨rfl, fun bytes hlong => if_pos hlong⟩

/-! ### A step that ended, and one whose word decodes (R250) -/

/-- Settles O12: one equation for each terminal mode. -/
theorem endedRunStays : Obligations.EndedRunStays := by
  unfold Obligations.EndedRunStays
  rintro s (hm | ⟨info, hm⟩)
  · exact step_of_stopped hm
  · exact step_of_faulted hm

/-- Settles O8: every instruction answers a next state, and the end of the step is `endStep`. -/
theorem stepRunsDecoded : Obligations.StepRunsDecoded := by
  unfold Obligations.StepRunsDecoded
  intro s i hm hpc hd
  obtain ⟨t, ht⟩ := exec_answers i s
  exact ⟨t, ht, step_of_exec hm (fetch_pc_of_le hpc) hd ht⟩

/-- A running step whose word decodes takes a fault with that word, whose cause is DecodeError for a refused system call
alone; or it does not fault. -/
theorem step_decoded_cases {s : State} {i : Instr} (hm : s.mode = .running) (hpc : s.pc.toNat ≤ 0xFFE)
    (hd : decode (wordAtPc s) = .ok i) :
    ∃ t, step s = .next t ∧
      ((∃ f : Trap, t = takeFault s f (some (wordAtPc s)) ∧ f.cause ≠ .loadError ∧ f.cause ≠ .fetchBounds ∧
          (f.cause = .decodeError → s.cfg.sysPolicy = .fault ∧ ∃ nnn, i = .sys nnn)) ∨
        NotFaulted t) := by
  obtain ⟨u, hu, hcases⟩ := exec_cases i s
  refine ⟨endStep u, step_of_exec hm (fetch_pc_of_le hpc) hd hu, ?_⟩
  rcases hcases with ⟨f, rfl, hf⟩ | ⟨x, -, rfl⟩ | hkeep
  · rw [(encode_of_decode hd).1]
    exact .inl ⟨f, rfl, hf⟩
  · exact .inr rfl
  · right
    rw [NotFaulted, endStep_mode, hkeep, hm]
    rfl

/-! ### The illegal words (30_encoding.md R97) -/

section
variable {op : Opcode}

/-- The words of the system-call space (R129). -/
theorem decode_eq_sys_iff :
    (∃ nnn, decode op = .ok (.sys nnn)) ↔ op.toNat < 0x1000 ∧ op.toNat ≠ 0x00E0 ∧ op.toNat ≠ 0x00EE := by
  have hO := fieldO_toNat op
  constructor
  · rintro ⟨nnn, hd⟩
    obtain ⟨rfl, hwf⟩ := encode_of_decode hd
    obtain ⟨hcls, hret⟩ := (wellFormed_sys nnn).1 hwf
    have hword : (encode (.sys nnn)).toNat = nnn.toNat := by simp [encode, encodeNnn_toNat]
    rw [hword]
    exact ⟨nnn.isLt, fun h => hcls (BitVec.eq_of_toNat_eq h), fun h => hret (BitVec.eq_of_toNat_eq h)⟩
  · rintro ⟨hlt, hcls, hret⟩
    rw [decode_group0 (by omega), if_neg (fun h => hcls (by rw [h]; rfl)), if_neg (fun h => hret (by rw [h]; rfl))]
    exact ⟨_, rfl⟩

theorem decodeGroup8_error_iff :
    (∃ r, decodeGroup8 op = .error r) ↔ op.toNat % 16 ∈ [0x8, 0x9, 0xA, 0xB, 0xC, 0xD, 0xF] := by
  unfold decodeGroup8
  rw [fieldN_toNat]
  have hlt : op.toNat % 16 < 16 := Nat.mod_lt _ (by decide)
  generalize op.toNat % 16 = n at hlt
  interval_cases n <;> simp

theorem decodeGroupE_error_iff : (∃ r, decodeGroupE op = .error r) ↔ op.toNat % 256 ∉ [0x9E, 0xA1] := by
  unfold decodeGroupE
  rw [fieldKk_toNat]
  split
  case h_3 => simp_all
  all_goals next hkk => simp [hkk]

theorem decodeGroupF_error_iff : (∃ r, decodeGroupF op = .error r) ↔
    op.toNat % 256 ∉ [0x07, 0x0A, 0x15, 0x18, 0x1E, 0x29, 0x33, 0x55, 0x65] := by
  unfold decodeGroupF
  rw [fieldKk_toNat]
  split
  case h_10 => simp_all
  all_goals next hkk => simp [hkk]

/-- Groups 5 and 9 take the low nibble 0 alone. -/
theorem ite_fieldN_error_iff {i : Instr} :
    (∃ r, (if fieldN op = 0#4 then Except.ok i else Except.error (DecodeReject.unrecognized op)) = .error r) ↔
      op.toNat % 16 ≠ 0 := by
  have hn : fieldN op = 0#4 ↔ op.toNat % 16 = 0 := by rw [← fieldN_toNat, ← BitVec.toNat_inj]; rfl
  split
  · next h => simp [hn.1 h]
  · next h => simpa [hn] using h

/-- The decoder refuses what R97 lists beside the system-call space. -/
theorem decode_error_iff : (∃ r, decode op = .error r) ↔ IllegalWord .nop op := by
  have hlt := fieldO_lt op
  have hO' := fieldO_toNat op
  match hO : (fieldO op).toNat with
  | 0 =>
    have hok : ¬ ∃ r, decode op = .error r := by
      rw [decode_group0 hO]
      split_ifs <;> simp
    simp [IllegalWord, ← hO', hO, hok]
  | 1 | 2 | 3 | 4 | 6 | 7 | 10 | 11 | 12 | 13 =>
    simp [IllegalWord, ← hO', hO, decode_group1, decode_group2, decode_group3, decode_group4, decode_group6,
      decode_group7, decode_groupA, decode_groupB, decode_groupC, decode_groupD]
  | 5 | 9 => simp [IllegalWord, ← hO', hO, decode_group5, decode_group9, ite_fieldN_error_iff]
  | 8 => simp [IllegalWord, ← hO', hO, decode_group8, decodeGroup8_error_iff]
  | 14 => simp [IllegalWord, ← hO', hO, decode_groupE, decodeGroupE_error_iff]
  | 15 => simp [IllegalWord, ← hO', hO, decode_groupF, decodeGroupF_error_iff]
  | n + 16 => omega

/-- An illegal word has no instruction, or is a system call where `P_SYS` refuses it (R94, log 2). -/
theorem illegalWord_iff (p : SysPolicy) : IllegalWord p op ↔
    (∃ r, decode op = .error r) ∨ p = .fault ∧ ∃ nnn, decode op = .ok (.sys nnn) := by
  rw [decode_error_iff, decode_eq_sys_iff]
  constructor
  · rintro (hsys | hother)
    · exact .inr hsys
    · exact .inl (.inr hother)
  · rintro ((⟨hnop, -⟩ | hother) | hsys)
    · cases hnop
    · exact .inr hother
    · exact .inl hsys

end

/-- Settles O9: an illegal word is refused by the decoder or by `sys`; a legal word runs, and no other instruction raises
DecodeError. -/
theorem decodeErrorExactly : Obligations.DecodeErrorExactly := by
  unfold Obligations.DecodeErrorExactly
  intro s hm hpc
  rw [illegalWord_iff]
  have hfetch := fetch_pc_of_le hpc
  constructor
  · rintro (⟨r, hd⟩ | ⟨hp, nnn, hd⟩)
    · exact step_of_decode_error hm hfetch hd
    · rw [step_of_exec hm hfetch hd (execSys_of_fault hp nnn), (encode_of_decode hd).1]
      rfl
  · intro hlegal
    cases hd : decode (wordAtPc s) with
    | error r => exact absurd (.inl ⟨r, hd⟩) hlegal
    | ok i =>
      obtain ⟨t, ht, ⟨f, rfl, -, -, hsys⟩ | hnf⟩ := step_decoded_cases hm hpc hd
      · refine ⟨_, ht, ?_⟩
        rintro info ⟨⟩ hc
        obtain ⟨hp, nnn, rfl⟩ := hsys hc
        exact hlegal (.inr ⟨hp, nnn, hd⟩)
      · refine ⟨t, ht, fun info hinfo => ?_⟩
        rw [NotFaulted, hinfo] at hnf
        cases hnf

/-! ### Precise faults (R254, R255) -/

/-- A running step that faults took the fetch's fault, or one with the word it fetched. -/
theorem step_faulted {s t : State} {info : FaultInfo} (hm : s.mode = .running) (h : step s = .next t)
    (ht : t.mode = .faulted info) :
    (0xFFE < s.pc.toNat ∧ t = takeFault s ⟨.fetchBounds, .nothing⟩ none) ∨
      (s.pc.toNat ≤ 0xFFE ∧
        ∃ f : Trap, t = takeFault s f (some (wordAtPc s)) ∧ f.cause ≠ .loadError ∧ f.cause ≠ .fetchBounds) := by
  rcases Nat.lt_or_ge 0xFFE s.pc.toNat with hpc | hpc
  · rw [step_of_fetch_error hm (fetch_of_gt hpc)] at h
    exact .inl ⟨hpc, (Host.Outcome.next.inj h).symm⟩
  · refine .inr ⟨hpc, ?_⟩
    cases hd : decode (wordAtPc s) with
    | error r =>
      rw [step_of_decode_error hm (fetch_pc_of_le hpc) hd] at h
      exact ⟨_, (Host.Outcome.next.inj h).symm, by decide, by decide⟩
    | ok i =>
      obtain ⟨u, hu, hcases⟩ := step_decoded_cases hm hpc hd
      obtain rfl : u = t := Host.Outcome.next.inj (hu.symm.trans h)
      rcases hcases with ⟨f, hf, hload, hbounds, -⟩ | hnf
      · exact ⟨f, hf, hload, hbounds⟩
      · rw [NotFaulted, ht] at hnf
        cases hnf

/-- Settles O13: `takeFault` changes the mode alone, and the record is the one it writes. -/
theorem faultsArePrecise : Obligations.FaultsArePrecise := by
  unfold Obligations.FaultsArePrecise
  intro s t info hm h ht
  rcases step_faulted hm h ht with ⟨hpc, rfl⟩ | ⟨hpc, f, rfl, hload, hbounds⟩ <;> cases ht
  · exact ⟨takeFault_eq s _ _, rfl, (if_pos hpc).symm, iff_of_true rfl hpc, nofun⟩
  · have hin : ¬ 0xFFE < s.pc.toNat := Nat.not_lt.2 hpc
    exact ⟨takeFault_eq s _ _, rfl, (if_neg hin).symm, iff_of_false hbounds hin, hload⟩

end Sys2Proof.Machine
end

section
/-! SUPPORT. The draw counter (10_state.md R49, 60_exceptions.md R251, log 4): every instruction but RND does the same under
another value of it. -/

namespace Sys2Proof.Machine

section
variable (s : State) (k : Nat)

theorem skipIf_setDraws (c : Bool) : skipIf c (s.setDraws k) = (skipIf c s).setDraws k := by
  cases c <;> rfl

theorem writeShift_setDraws (x : Reg) (shift : Byte → Byte) (flag : Byte) :
    writeShift (s.setDraws k) x shift flag = (writeShift s x shift flag).setDraws k := by
  unfold writeShift
  rw [State.setDraws_cfg]
  cases s.cfg.vfOrder <;> rfl

theorem memWrite_setDraws (a : Nat) (b : Byte) :
    memWrite (s.setDraws k) a b = (memWrite s a b).map (·.setDraws k) := by
  unfold memWrite
  rw [State.setDraws_cfg]
  split_ifs <;> rfl

theorem memWriteBytes_setDraws (a : Nat) (bs : List Byte) :
    memWriteBytes (s.setDraws k) a bs = (memWriteBytes s a bs).map (·.setDraws k) := by
  induction bs generalizing s a with
  | nil => rfl
  | cons b bs ih =>
    simp only [memWriteBytes, memWrite_setDraws]
    cases memWrite s a b with
    | error f => rfl
    | ok t => exact ih t (a + 1)

/-- An instruction that stores bytes stores the same, or takes the same fault, under another draw counter. -/
theorem conclude_memWriteBytes_setDraws (i : Instr) (a : Nat) (bs : List Byte) :
    ∃ t, conclude s i (memWriteBytes (advance s) a bs) = .next t ∧
      conclude (s.setDraws k) i (memWriteBytes ((advance s).setDraws k) a bs) = .next (t.setDraws k) := by
  rw [memWriteBytes_setDraws]
  cases memWriteBytes (advance s) a bs <;> exact ⟨_, rfl, rfl⟩

/-- Each case that decides an instruction's outcome reads other fields, so the same equation holds of both states. -/
theorem exec_setDraws {i : Instr} (hi : ∀ x kk, i ≠ .rnd x kk) :
    ∃ t, exec i s = .next t ∧ exec i (s.setDraws k) = .next (t.setDraws k) := by
  cases i with
  | rnd x kk => exact absurd rfl (hi x kk)
  | ret =>
    rcases Nat.eq_zero_or_eq_succ_pred s.sp.val with hsp | hsp
    · exact ⟨_, execRet_of_empty hsp, execRet_of_empty (s := s.setDraws k) hsp⟩
    · have hj : s.sp.val.pred < 16 := by omega
      exact ⟨_, execRet_of_succ (j := ⟨_, hj⟩) hsp, execRet_of_succ (s := s.setDraws k) (j := ⟨_, hj⟩) hsp⟩
  | sys nnn =>
    cases hp : s.cfg.sysPolicy with
    | fault => exact ⟨_, execSys_of_fault hp nnn, execSys_of_fault (s := s.setDraws k) hp nnn⟩
    | nop => exact ⟨_, execSys_of_nop hp nnn, execSys_of_nop (s := s.setDraws k) hp nnn⟩
  | call nnn =>
    by_cases hsp : s.sp.val < 16
    · exact ⟨_, execCall_of_lt hsp nnn, execCall_of_lt (s := s.setDraws k) hsp nnn⟩
    · have hfull : s.sp.val = 16 := by omega
      exact ⟨_, execCall_of_full hfull nnn, execCall_of_full (s := s.setDraws k) hfull nnn⟩
  | skp x =>
    rcases Nat.lt_or_ge 15 (s.getV x).toNat with hv | hv
    · exact ⟨_, execSkp_of_gt hv, execSkp_of_gt (s := s.setDraws k) hv⟩
    · have hlt := Nat.lt_succ_of_le hv
      refine ⟨_, execSkp_of_lt hlt, (execSkp_of_lt (s := s.setDraws k) hlt).trans ?_⟩
      exact congrArg Host.Outcome.next (skipIf_setDraws (advance s) k _)
  | sknp x =>
    rcases Nat.lt_or_ge 15 (s.getV x).toNat with hv | hv
    · exact ⟨_, execSknp_of_gt hv, execSknp_of_gt (s := s.setDraws k) hv⟩
    · have hlt := Nat.lt_succ_of_le hv
      refine ⟨_, execSknp_of_lt hlt, (execSknp_of_lt (s := s.setDraws k) hlt).trans ?_⟩
      exact congrArg Host.Outcome.next (skipIf_setDraws (advance s) k _)
  | ldVxK x =>
    cases hw : s.cfg.waitPolicy with
    | await => exact ⟨_, execLdVxK_of_await hw x, execLdVxK_of_await (s := s.setDraws k) hw x⟩
    | fault => exact ⟨_, execLdVxK_of_fault hw x, execLdVxK_of_fault (s := s.setDraws k) hw x⟩
  | addIVx x =>
    rcases Nat.lt_or_ge 0xFFFF (s.i.toNat + (s.getV x).toNat) with hsum | hsum
    · exact ⟨_, execAddIVx_of_gt hsum, execAddIVx_of_gt (s := s.setDraws k) hsum⟩
    · exact ⟨_, execAddIVx_of_le hsum, execAddIVx_of_le (s := s.setDraws k) hsum⟩
  | drw x y n =>
    by_cases hin : n.toNat = 0 ∨ s.i.toNat + n.toNat ≤ 0x1000
    · exact ⟨_, execDrw_of_le hin, execDrw_of_le (s := s.setDraws k) hin⟩
    · have hn : 1 ≤ n.toNat := by omega
      have hout : 0x1000 < s.i.toNat + n.toNat := by omega
      exact ⟨_, execDrw_of_gt hn hout, execDrw_of_gt (s := s.setDraws k) hn hout⟩
  | ldVxMem x =>
    rcases Nat.lt_or_ge 0xFFF (s.i.toNat + x.val) with hout | hin
    · exact ⟨_, execLdVxMem_of_gt hout, execLdVxMem_of_gt (s := s.setDraws k) hout⟩
    · exact ⟨_, execLdVxMem_of_le hin, execLdVxMem_of_le (s := s.setDraws k) hin⟩
  | ldBVx x | ldMemVx x => exact conclude_memWriteBytes_setDraws s k _ _ _
  | seImm x kk | sneImm x kk | seReg x y | sneReg x y =>
    exact ⟨_, rfl, congrArg Host.Outcome.next (skipIf_setDraws (advance s) k _)⟩
  | shr x y | shl x y => exact ⟨_, rfl, congrArg Host.Outcome.next (writeShift_setDraws (advance s) k _ _ _)⟩
  | cls | jp _ | ldImm _ _ | addImm _ _ | ldReg _ _ | orReg _ _ | andReg _ _ | xorReg _ _ | addReg _ _ | sub _ _
  | subn _ _ | ldI _ | jpV0 _ | ldVxDt _ | ldDtVx _ | ldStVx _ | ldFVx _ => exact ⟨_, rfl, rfl⟩

end

/-- Settles O22: the state an instruction answers is the one `exec_setDraws` names. -/
theorem onlyRndDraws : Obligations.OnlyRndDraws := by
  unfold Obligations.OnlyRndDraws
  intro i s t k hi h
  obtain ⟨u, hu, hk⟩ := exec_setDraws s k hi
  obtain rfl : u = t := Host.Outcome.next.inj (hu.symm.trans h)
  exact hk

end Sys2Proof.Machine
end

section
/-! SUPPORT. The host's transactions between steps (60_exceptions.md R278-R284). -/

namespace Sys2Proof.Machine

theorem KeepsAllBut.setKeyFlag {fs : List Field} {s t : State} (h : KeepsAllBut fs s t) (hf : .key ∈ fs) (k : Key)
    (b : Bool) : KeepsAllBut fs s (t.setKeyFlag k b) := by
  intro f hn
  cases f
  case key => exact absurd hf hn
  all_goals exact h _ hn

/-- The display read lists the pixels in the order of their indices (R278). -/
theorem readDisplay_getElem? (s : State) {p : Nat} (hp : p < 2048) : (readDisplay s)[p]? = some (pixel s.disp p) := by
  rw [readDisplay, List.getElem?_map, List.getElem?_range hp, Option.map_some]

/-- A stop ends a run that has not ended (R283). -/
theorem stop_of_not_ended {s : State} (hm : s.mode = .running ∨ ∃ x, s.mode = .awaitKey x) :
    stop s = s.setMode .stopped := by
  rcases hm with hm | ⟨x, hm⟩ <;> simp only [stop, hm]

theorem stop_of_ended {s : State} (hm : s.mode = .stopped ∨ ∃ info, s.mode = .faulted info) : stop s = s := by
  rcases hm with hm | ⟨info, hm⟩ <;> simp only [stop, hm]

/-- Settles O57: each transaction writes one field or none. -/
theorem hostTransactions : Obligations.HostTransactions := by
  unfold Obligations.HostTransactions
  intro s k b
  have hrefl (fs : List Field) : KeepsAllBut fs s s := KeepsAllBut.refl fs s
  refine ⟨⟨?_, fun j hj => ?_, (hrefl _).setKeyFlag (by decide) k b⟩, ⟨rfl, rfl, (hrefl _).setDirty (by decide) false⟩,
    ⟨?_, fun x y hx hy => readDisplay_getElem? s (by omega)⟩, stop_of_not_ended, stop_of_ended, rfl⟩
  · exact (State.getKey_setKeyFlag s k k b).trans (if_pos rfl)
  · exact (State.getKey_setKeyFlag s k j b).trans (if_neg hj)
  · rw [readDisplay, List.length_map, List.length_range]

end Sys2Proof.Machine
end
